-- ==== Sys2Proof/Word.lean ====
section
/-! DEFINITION. The 16-bit word and the index and field types of the machine (`00_scope.md` R7, R8). -/

namespace Sys2Proof

/-- R12, R40: the fixed 16-bit unit of memory, registers, ports and instructions. -/
abbrev Word := BitVec 16

/-- R21: a register index; every one of its 16 values names a register. -/
abbrev RegIdx := BitVec 4

/-- R30: a port index; every one of its 8 values names a port. -/
abbrev PortIdx := BitVec 3

/-- Source text, one line or one token, as its characters (log entry 16). -/
abbrev Text := List Char

end Sys2Proof
end

