-- ==== Sys2Proof/Syntax.lean ====
section
/-! DEFINITION. The abstract instruction (`30_encoding.md` R69), one constructor for each row of the opcode table. -/

namespace Sys2Proof

/-- R69. All fields are raw bit patterns; the instruction that uses a field decides its reading (R67).
The five reserved opcodes of R69's `RSV` are five constructors, each keeping the 12 low bits, which the report of the
word needs (R203; log entry 10). -/
inductive Instr where
  /-- opcode 0 (R105): register `a`, unsigned address `l`. -/
  | load (a : BitVec 4) (l : BitVec 8)
  /-- opcode 1 (R106): register `a`, unsigned address `l`. -/
  | store (a : BitVec 4) (l : BitVec 8)
  /-- opcode 2 (R115): destination `a`, sources `b` and `c`. -/
  | add (a b c : BitVec 4)
  /-- opcode 3 (R107): register `a`, two's-complement constant `k`. -/
  | loadc (a : BitVec 4) (k : BitVec 8)
  /-- opcode 4 (R116): destination `a`, minuend `b`, subtrahend `c`. -/
  | sub (a b c : BitVec 4)
  /-- opcode 5 (R121): register tested `a`, displacement `l`. -/
  | jmpz (a : BitVec 4) (l : BitVec 8)
  /-- opcode 6 (R122): register tested `a`, displacement `l`. -/
  | jmpn (a : BitVec 4) (l : BitVec 8)
  /-- opcode 7 (R123): displacement `j`. -/
  | jmp (j : BitVec 12)
  /-- opcode 8 (R108): destination `a`, base register `b`, two's-complement offset `c`. -/
  | movr (a b c : BitVec 4)
  /-- opcode 9 (R133). -/
  | reserved9 (rest : BitVec 12)
  /-- opcode 10 (R133). -/
  | reserved10 (rest : BitVec 12)
  /-- opcode 11 (R133). -/
  | reserved11 (rest : BitVec 12)
  /-- opcode 12 (R133). -/
  | reserved12 (rest : BitVec 12)
  /-- opcode 13 (R133). -/
  | reserved13 (rest : BitVec 12)
  /-- opcode 14 (R130): register `a`, port `p`, direction `d` (1: register to port). -/
  | io (a : BitVec 4) (p : BitVec 3) (d : BitVec 1)
  /-- opcode 15 (R132). -/
  | endOp
deriving DecidableEq, Repr

end Sys2Proof
end

