-- ==== Sys2Proof/WellFormed.lean ====
section
/-! DEFINITION. What is well formed. `Instr` needs no range check: its field types hold exactly the legal values (R75).
The one check on it is that it is not a reserved word, which the encoder never receives (R69, R74). The range checks
stand on `Operation`, the encoder's integer operands (R70), where a value can miss its field: `Operation.fits` (R71). -/

namespace Sys2Proof

/-- R69, R74: the instruction is one of the 11 the encoder is given, so not `RSV`. -/
def Instr.assigned : Instr → Bool
  | .load _ _ => true
  | .store _ _ => true
  | .add _ _ _ => true
  | .loadc _ _ => true
  | .sub _ _ _ => true
  | .jmpz _ _ => true
  | .jmpn _ _ => true
  | .jmp _ => true
  | .movr _ _ _ => true
  | .reserved9 _ => false
  | .reserved10 _ => false
  | .reserved11 _ => false
  | .reserved12 _ => false
  | .reserved13 _ => false
  | .io _ _ _ => true
  | .endOp => true

/-- R70: what the encoder takes: an opcode and integer operands of any size and sign.
For IO the two parts of the combined field are kept apart, the P-index `p` and the D-index `d` (R65; log entry 14). -/
inductive Operation where
  | load (a n : Int)
  | store (a n : Int)
  | add (a b c : Int)
  | loadc (a n : Int)
  | sub (a b c : Int)
  | jmpz (a n : Int)
  | jmpn (a n : Int)
  | jmp (n : Int)
  | movr (a b n : Int)
  | io (a p d : Int)
  | endOp
deriving DecidableEq, Repr

/-- R71: `fits_unsigned(n, W)`. -/
def fitsUnsigned (n : Int) (W : Nat) : Bool := decide (0 ≤ n) && decide (n < 2 ^ W)

/-- R71: `fits_signed(n, W)`, written for `W ≥ 1` as `-2^(W-1) ≤ n < 2^(W-1)`. -/
def fitsSigned (n : Int) (W : Nat) : Bool := decide (-(2 ^ (W - 1)) ≤ n) && decide (n < 2 ^ (W - 1))

/-- R71: no operand loses information when it is put into its field. -/
def Operation.fits : Operation → Bool
  | .load a n => fitsUnsigned a 4 && fitsUnsigned n 8
  | .store a n => fitsUnsigned a 4 && fitsUnsigned n 8
  | .add a b c => fitsUnsigned a 4 && fitsUnsigned b 4 && fitsUnsigned c 4
  | .loadc a n => fitsUnsigned a 4 && fitsSigned n 8
  | .sub a b c => fitsUnsigned a 4 && fitsUnsigned b 4 && fitsUnsigned c 4
  | .jmpz a n => fitsUnsigned a 4 && fitsSigned n 8
  | .jmpn a n => fitsUnsigned a 4 && fitsSigned n 8
  | .jmp n => fitsSigned n 12
  | .movr a b n => fitsUnsigned a 4 && fitsUnsigned b 4 && fitsSigned n 4
  | .io a p d => fitsUnsigned a 4 && fitsUnsigned p 3 && fitsUnsigned d 1
  | .endOp => true

end Sys2Proof
end

