-- ==== Sys2Proof/Decode.lean ====
section
/-! DEFINITION. The word model (`00_scope.md` R9, `30_encoding.md` R61 to R63), the decoder (R72) and the encoder
(R70) with its inverse readings (R67). -/

namespace Sys2Proof

/-! ## The word model -/

/-- R9, R62: `trunc_W(n) = n mod 2^W`, for any integer. -/
def trunc (W : Nat) (n : Int) : BitVec W := BitVec.ofInt W n

/-- R9, R63: the unsigned reading. -/
def toUnsigned {W : Nat} (v : BitVec W) : Int := v.toNat

/-- R9, R63: the two's-complement reading: `v` when its top bit is 0, else `v - 2^W`. -/
def toSigned {W : Nat} (v : BitVec W) : Int := if v.msb then (v.toNat : Int) - 2 ^ W else v.toNat

/-- R9: `sext_W(v)`, the 16-bit word with the same signed value. -/
def sext {W : Nat} (v : BitVec W) : Word := trunc 16 (toSigned v)

/-- R9: `zext_W(v)`, the 16-bit word with the same unsigned value. -/
def zext {W : Nat} (v : BitVec W) : Word := trunc 16 (toUnsigned v)

/-- R61: the sub-field of `width` bits at offset `off` from the most significant end. -/
def field (w : Word) (off width : Nat) : BitVec width := w.extractLsb' (16 - off - width) width

/-! ## The decoder -/

/-- R72: total on all 65536 words; the opcode alone selects the instruction (R66); bits 3:0 of IO and 11:0 of END are
ignored (R68). -/
def decode (w : Word) : Instr :=
  let op := field w 0 4
  let a := field w 4 4
  let b := field w 8 4
  let c := field w 12 4
  let n := field w 8 8
  let j := field w 4 12
  match op.toNat with
  | 0 => .load a n
  | 1 => .store a n
  | 2 => .add a b c
  | 3 => .loadc a n
  | 4 => .sub a b c
  | 5 => .jmpz a n
  | 6 => .jmpn a n
  | 7 => .jmp j
  | 8 => .movr a b c
  | 9 => .reserved9 j
  | 10 => .reserved10 j
  | 11 => .reserved11 j
  | 12 => .reserved12 j
  | 13 => .reserved13 j
  | 14 => .io a (field w 8 3) (field w 11 1)
  | _ => .endOp

/-- The decoder on a word given as the opcode table numbers its bits. An instruction is one 16-bit word (R60), so a
longer one is no instruction, and of a shorter one the missing high bits are 0. -/
def decodeTableWord (nbits w : Nat) : Option Instr :=
  if nbits ≤ 16 then some (decode (BitVec.ofNat 16 (w % 2 ^ nbits))) else none

/-! ## The encoder -/

/-- R70: format RL. -/
def packRL (op a n : Int) : Word :=
  ((trunc 4 op).setWidth 16 <<< 12) ||| ((trunc 4 a).setWidth 16 <<< 8) ||| (trunc 8 n).setWidth 16

/-- R70: format RRR. -/
def packRRR (op a b c : Int) : Word :=
  ((trunc 4 op).setWidth 16 <<< 12) ||| ((trunc 4 a).setWidth 16 <<< 8) ||| ((trunc 4 b).setWidth 16 <<< 4) |||
    (trunc 4 c).setWidth 16

/-- R70: format J. -/
def packJ (op n : Int) : Word := ((trunc 4 op).setWidth 16 <<< 12) ||| (trunc 12 n).setWidth 16

/-- R70: format IO, with the combined field `f`; bits 3:0 are 0 (R68). -/
def packIO (a f : Int) : Word :=
  ((trunc 4 14).setWidth 16 <<< 12) ||| ((trunc 4 a).setWidth 16 <<< 8) ||| ((trunc 4 f).setWidth 16 <<< 4)

/-- R70: format N; bits 11:0 are 0 (R68). -/
def packN (op : Int) : Word := (trunc 4 op).setWidth 16 <<< 12

/-- R70: the bitwise OR of two integers of any sign, a negative one read as two's complement with its sign repeated without
end: `-n - 1` has the bits that `n` has not. -/
def intOr : Int → Int → Int
  | .ofNat m, .ofNat n => .ofNat (m ||| n)
  | .ofNat m, .negSucc n => .negSucc (n ^^^ (n &&& m))
  | .negSucc m, .ofNat n => .negSucc (m ^^^ (m &&& n))
  | .negSucc m, .negSucc n => .negSucc (m &&& n)

/-- R65, R70, R183: the combined field of IO, `(P << 1) | D`, for indices of any size and sign. -/
def ioField (p d : Int) : Int := intOr (2 * p) d

/-- R70: the encoder: stateless, total, each operand cut to its field (R62). -/
def encodeOp : Operation → Word
  | .load a n => packRL 0 a n
  | .store a n => packRL 1 a n
  | .add a b c => packRRR 2 a b c
  | .loadc a n => packRL 3 a n
  | .sub a b c => packRRR 4 a b c
  | .jmpz a n => packRL 5 a n
  | .jmpn a n => packRL 6 a n
  | .jmp n => packJ 7 n
  | .movr a b n => packRRR 8 a b n
  | .io a p d => packIO a (ioField p d)
  | .endOp => packN 15

/-- R67: the integers an instruction's fields stand for; `none` for a reserved word. -/
def readBack : Instr → Option Operation
  | .load a l => some (.load (toUnsigned a) (toUnsigned l))
  | .store a l => some (.store (toUnsigned a) (toUnsigned l))
  | .add a b c => some (.add (toUnsigned a) (toUnsigned b) (toUnsigned c))
  | .loadc a k => some (.loadc (toUnsigned a) (toSigned k))
  | .sub a b c => some (.sub (toUnsigned a) (toUnsigned b) (toUnsigned c))
  | .jmpz a l => some (.jmpz (toUnsigned a) (toSigned l))
  | .jmpn a l => some (.jmpn (toUnsigned a) (toSigned l))
  | .jmp j => some (.jmp (toSigned j))
  | .movr a b c => some (.movr (toUnsigned a) (toUnsigned b) (toSigned c))
  | .reserved9 _ => none
  | .reserved10 _ => none
  | .reserved11 _ => none
  | .reserved12 _ => none
  | .reserved13 _ => none
  | .io a p d => some (.io (toUnsigned a) p.toNat d.toNat)
  | .endOp => some .endOp

/-- The word of a reserved opcode with its 12 low bits (R74); no source line and no operation produces it (R191). -/
def reservedWord (op : BitVec 4) (rest : BitVec 12) : Word := op ++ rest

/-- The word of an instruction: the encoder (R70) on its raw fields read as integers; for a reserved word, the word
itself. The unused bits are 0 (R68). -/
def encode : Instr → Word
  | .load a l => encodeOp (.load a.toNat l.toNat)
  | .store a l => encodeOp (.store a.toNat l.toNat)
  | .add a b c => encodeOp (.add a.toNat b.toNat c.toNat)
  | .loadc a k => encodeOp (.loadc a.toNat k.toNat)
  | .sub a b c => encodeOp (.sub a.toNat b.toNat c.toNat)
  | .jmpz a l => encodeOp (.jmpz a.toNat l.toNat)
  | .jmpn a l => encodeOp (.jmpn a.toNat l.toNat)
  | .jmp j => encodeOp (.jmp j.toNat)
  | .movr a b c => encodeOp (.movr a.toNat b.toNat c.toNat)
  | .reserved9 rest => reservedWord 9 rest
  | .reserved10 rest => reservedWord 10 rest
  | .reserved11 rest => reservedWord 11 rest
  | .reserved12 rest => reservedWord 12 rest
  | .reserved13 rest => reservedWord 13 rest
  | .io a p d => encodeOp (.io a.toNat p.toNat d.toNat)
  | .endOp => encodeOp .endOp

end Sys2Proof
end

