-- ==== Sys2Proof/Config.lean ====
section
/-! DEFINITION. What is fixed for the machine (`00_scope.md` R7). MEM_LEN and UNIFIED are open parameters: the first is
`Memory.len`, set by a load; the second is an argument of the assembler. The machine has no free value (R230). -/

namespace Sys2Proof.Config

/-- R7: NREG, the number of general registers. -/
abbrev nreg : Nat := 16

/-- R7: NPORT, the number of I/O port registers. -/
abbrev nport : Nat := 8

/-- What an address inside `[0, MEM_LEN)` that the cell list does not list reads as.
DESIGN CHOICE (log entry 2), safe: it only fixes how memory is written down, since every word that exists has its image
value (R220, R223) and a load lists exactly the image words that differ from this one. -/
def unlistedWord : Word := 0

end Sys2Proof.Config
end

