-- ==== Sys2Proof/Machine/State.lean ====
section
/-! DEFINITION. The engine's state (`10_state.md` R20), the reasons a step can stop, and the state at reset. -/

namespace Sys2Proof.Machine

/-- R12, R41: one listed memory word: its word address and its 16 bits. The unit of addressing is the word (R40), so a
cell holds a word and there are no bytes (log entry 1). -/
abbrev Cell := Nat × Word

/-- R32, R40: the memory: MEM_LEN words at addresses `0 .. len-1`. `cells` lists, by strictly rising address, exactly the
words that differ from `Config.unlistedWord` (log entry 2); `Memory.wf` in Machine/Ops.lean says so. -/
structure Memory where
  /-- R7, R32: MEM_LEN, fixed at load. -/
  len : Nat
  cells : List Cell
deriving DecidableEq, Repr

/-- R203: one `UnknownOpcode(p, w)` event: the address and the word. -/
structure Report where
  addr : Int
  word : Word
deriving DecidableEq, Repr

/-- R20: general registers, program counter, I/O port registers and memory; and the engine's one output, the list of
reports of the current call, oldest first (R36, R203), which no instruction reads (log entry 5). -/
structure State where
  regs : Vector Word 16
  pc : Int
  ports : Vector Word 8
  mem : Memory
  reports : List Report
deriving DecidableEq, Repr

/-- Why a step stops in a faulted state. -/
inductive Fault where
  /-- R204: raised by LOAD, STORE and MOVR when the data address `addr` is outside `[0, MEM_LEN)`. Safe: the spec gives
  such an access no value and no effect, and stops the run (R98). -/
  | memBounds (addr : Int)
deriving DecidableEq, Repr

/-- Why a step gives no meaning. -/
inductive Refusal where
  /-- Raised only by an arm of `exec` for an instruction without a meaning; this model has none, so nothing raises it.
  Safe. -/
  | notModelled (mnemonic : String)
deriving DecidableEq, Repr

/-- R220, R221: after a load registers and ports are 0 and `pc` is 0. The only reset is a load, and a state with nothing
loaded is the load of the empty image: MEM_LEN is 0 and nothing is listed (log entry 3). -/
def State.reset : State where
  regs := Vector.replicate 16 0
  pc := 0
  ports := Vector.replicate 8 0
  mem := { len := 0, cells := [] }
  reports := []

end Sys2Proof.Machine
end

