-- ==== Sys2Proof/Machine/Ops.lean ====
section
/-! DEFINITION. The named operations over registers, ports, memory, program counter and reports; fetch; running and
halted; load.

The machine takes no exception, has no trap entry and nothing to return from (R200, R207), so there is no shared
exception operation here; what takes its place is the non-fatal report (`State.report`, R203). -/

namespace Sys2Proof.Machine

/-! ## Registers and ports -/

/-- R10, R21: `x[a]`. -/
def State.reg (s : State) (a : RegIdx) : Word := s.regs[a.toNat]'(by have := a.isLt; omega)

/-- R10, R21: `x[a] <- v`. -/
def State.setReg (s : State) (a : RegIdx) (v : Word) : State :=
  { s with regs := s.regs.set a.toNat v (by have := a.isLt; omega) }

/-- R10, R30: `port[k]`; a read changes nothing (R31). -/
def State.port (s : State) (k : PortIdx) : Word := s.ports[k.toNat]'(by have := k.isLt; omega)

/-- R10, R30: `port[k] <- v`. -/
def State.setPort (s : State) (k : PortIdx) (v : Word) : State :=
  { s with ports := s.ports.set k.toNat v (by have := k.isLt; omega) }

/-! ## Program counter and reports -/

/-- R10: `pc <- target`. -/
def State.setPc (s : State) (target : Int) : State := { s with pc := target }

/-- R25, R95: the default advance, `pc <- p + 1`. -/
def State.advance (s : State) : State := s.setPc (s.pc + 1)

/-- R120: a taken jump, `pc <- p + displacement` and nothing more. -/
def State.jumpBy (s : State) (d : Int) : State := s.setPc (s.pc + d)

/-- R203: `report UnknownOpcode(p, w)`: one event appended to the report list, with `p` the address of the word. -/
def State.report (s : State) (w : Word) : State :=
  { s with reports := s.reports ++ [{ addr := s.pc, word := w }] }

/-! ## Memory -/

/-- The word a cell list gives at an address; an unlisted address reads as `Config.unlistedWord`. -/
def cellsGet : List Cell → Nat → Word
  | [], _ => Config.unlistedWord
  | c :: cs, a => if a = c.1 then c.2 else cellsGet cs a

/-- The cell list with the word `v` at address `a`, in canonical form: the list stays sorted, and the word an unlisted
address reads as is not listed. -/
def cellsSet : List Cell → Nat → Word → List Cell
  | [], a, v => if v = Config.unlistedWord then [] else [(a, v)]
  | c :: cs, a, v =>
    if a < c.1 then (if v = Config.unlistedWord then c :: cs else (a, v) :: c :: cs)
    else if a = c.1 then (if v = Config.unlistedWord then cs else (a, v) :: cs)
    else c :: cellsSet cs a v

/-- The cells of an image whose first word stands at address `a`. -/
def cellsOfImage : List Word → Nat → List Cell
  | [], _ => []
  | w :: ws, a => if w = Config.unlistedWord then cellsOfImage ws (a + 1) else (a, w) :: cellsOfImage ws (a + 1)

/-- The canonical form of a cell list whose addresses are at least `lo` and below `len`. -/
def cellsWf : List Cell → Nat → Nat → Bool
  | [], _, _ => true
  | c :: cs, lo, len =>
    decide (lo ≤ c.1) && decide (c.1 < len) && decide (c.2 ≠ Config.unlistedWord) && cellsWf cs (c.1 + 1) len

/-- Memory is in its one canonical form: addresses strictly rising and inside `[0, MEM_LEN)`, no listed word equal to
what an unlisted address reads as. Every memory operation keeps it (Laws/Memory.lean). -/
def Memory.wf (m : Memory) : Bool := cellsWf m.cells 0 m.len

/-- R43, R44: an address that exists. -/
abbrev Memory.inBounds (m : Memory) (addr : Int) : Prop := 0 ≤ addr ∧ addr < m.len

/-- R43: `MemRead(addr, 1)`; `none` outside `[0, MEM_LEN)`, where the caller raises `MemBounds(addr)`. -/
def Memory.read (m : Memory) (addr : Int) : Option Word :=
  if m.inBounds addr then some (cellsGet m.cells addr.toNat) else none

/-- R44: `MemWrite(addr, 1, v)`; `none` outside `[0, MEM_LEN)`. It changes one word and never the length. -/
def Memory.write (m : Memory) (addr : Int) (v : Word) : Option Memory :=
  if m.inBounds addr then some { m with cells := cellsSet m.cells addr.toNat v } else none

/-- R220: the memory of an image: MEM_LEN is the number of its words, word `a` at address `a`. -/
def Memory.ofImage (img : List Word) : Memory where
  len := img.length
  cells := cellsOfImage img 0

/-- R105, R108: `x[a] <- MemRead(addr, 1); pc <- p + 1`, or the fault `MemBounds(addr)` with nothing changed. -/
def loadFrom (a : RegIdx) (addr : Int) (s : State) : Host.Outcome State Fault Refusal :=
  match s.mem.read addr with
  | some v => .next (s.setReg a v).advance
  | none => .fault (.memBounds addr)

/-- R106: `MemWrite(addr, 1, x[a]); pc <- p + 1`, or the fault `MemBounds(addr)` with nothing changed. -/
def storeTo (a : RegIdx) (addr : Int) (s : State) : Host.Outcome State Fault Refusal :=
  match s.mem.write addr (s.reg a) with
  | some m => .next ({ s with mem := m } : State).advance
  | none => .fault (.memBounds addr)

/-- R133: `report UnknownOpcode(p, w); pc <- p + 1`, for a reserved opcode and its 12 low bits. -/
def reservedStep (op : BitVec 4) (rest : BitVec 12) (s : State) : Host.Outcome State Fault Refusal :=
  .next (s.report (reservedWord op rest)).advance

/-! ## Fetch, running and halted -/

/-- R45: instruction fetch reads `mem[pc]` when `0 <= pc < MEM_LEN`; otherwise there is no fetch. -/
def fetch (s : State) : Option Word := s.mem.read s.pc

/-- R92: `pc` is outside `[0, MEM_LEN)`. -/
def offMemory (s : State) : Bool := (fetch s).isNone

/-- R92: the word at `pc` has opcode 15. -/
def atEnd (s : State) : Bool :=
  match fetch s with
  | some w => field w 0 4 = 15
  | none => false

/-- R92, R34: halted is a function of `pc` and memory, not a stored bit. -/
def halted (s : State) : Bool := offMemory s || atEnd s

/-- R92. -/
def running (s : State) : Bool := !halted s

/-! ## Load -/

/-- R220: the program load, this machine's only reset: fresh memory from the image, registers and ports 0, `pc` 0. -/
def State.load (img : List Word) : State := { State.reset with mem := Memory.ofImage img }

/-- Memory with the word `w` at address `a`, grown to hold it where `a` is beyond its end: the part of a load that puts
one instruction word in place (log entry 15). -/
def Memory.place (m : Memory) (a : Nat) (w : Word) : Memory where
  len := max m.len (a + 1)
  cells := cellsSet m.cells a w

/-- The state with the word `w` where the next fetch reads it. There is no fetch at a negative `pc` (R45), so from there
`pc` is set to 0, where a load puts it (log entry 15). -/
def State.placeAtPc (s : State) (w : Word) : State :=
  { s with pc := max s.pc 0, mem := s.mem.place s.pc.toNat w }

end Sys2Proof.Machine
end

