-- ==== Sys2Proof/Machine/Flags.lean ====
section
/-! DEFINITION. The machine has no flags (R28). What takes their place: the two conditions the conditional jumps test on
a register, and the result law of ADD and SUB, which records no carry and no overflow. -/

namespace Sys2Proof.Machine

/-- R121: `x[a] == 0x0000`, the condition of JMPZ. -/
def isZero (v : Word) : Bool := v = 0

/-- R122: `to_signed_16(x[a]) < 0`, the condition of JMPN. -/
def isNegative (v : Word) : Bool := decide (toSigned v < 0)

/-- R115, R117: the signed readings added over the integers, the low 16 bits kept. -/
def addResult (u v : Word) : Word := trunc 16 (toSigned u + toSigned v)

/-- R116, R117: the signed readings subtracted over the integers, the low 16 bits kept. -/
def subResult (u v : Word) : Word := trunc 16 (toSigned u - toSigned v)

end Sys2Proof.Machine
end

