-- ==== Sys2Proof/Machine/Arith.lean ====
section
/-! DEFINITION. ADD and SUB (`42_arithmetic.md`). Both sources are read before the destination is written. -/

namespace Sys2Proof.Machine

/-- R115. -/
def execAdd (a b c : BitVec 4) (s : State) : Host.Outcome State Fault Refusal :=
  .next (s.setReg a (addResult (s.reg b) (s.reg c))).advance

/-- R116: `x[b]` minus `x[c]`. -/
def execSub (a b c : BitVec 4) (s : State) : Host.Outcome State Fault Refusal :=
  .next (s.setReg a (subResult (s.reg b) (s.reg c))).advance

end Sys2Proof.Machine
end

