-- ==== Sys2Proof/Machine/IoEnd.lean ====
section
/-! DEFINITION. IO, END and the reserved opcodes (`44_io_end_reserved.md`). -/

namespace Sys2Proof.Machine

/-- R130: `d = 1` copies the register to the port, `d = 0` the port to the register. -/
def execIo (a : BitVec 4) (p : BitVec 3) (d : BitVec 1) (s : State) : Host.Outcome State Fault Refusal :=
  .next (if d = 1 then s.setPort p (s.reg a) else s.setReg a (s.port p)).advance

/-- R132, R96: the engine halts with `pc` at the END word, unchanged, and nothing else changes; a later step from there
does the same again, so the next state is the same state (log entry 6). -/
def execEnd (s : State) : Host.Outcome State Fault Refusal := .next s

/-- R133, opcode 9. -/
def execReserved9 (rest : BitVec 12) (s : State) : Host.Outcome State Fault Refusal := reservedStep 9 rest s

/-- R133, opcode 10. -/
def execReserved10 (rest : BitVec 12) (s : State) : Host.Outcome State Fault Refusal := reservedStep 10 rest s

/-- R133, opcode 11. -/
def execReserved11 (rest : BitVec 12) (s : State) : Host.Outcome State Fault Refusal := reservedStep 11 rest s

/-- R133, opcode 12. -/
def execReserved12 (rest : BitVec 12) (s : State) : Host.Outcome State Fault Refusal := reservedStep 12 rest s

/-- R133, opcode 13. -/
def execReserved13 (rest : BitVec 12) (s : State) : Host.Outcome State Fault Refusal := reservedStep 13 rest s

end Sys2Proof.Machine
end

