-- ==== Sys2Proof/Machine/Operands.lean ====
section
/-! DEFINITION. Every operand form (`30_encoding.md` R67): what each field is extended to. No operand is scaled. -/

namespace Sys2Proof.Machine

/-- R67, R105, R106: the absolute address of LOAD and STORE, zero-extended, 0 to 255. -/
def absAddr (l : BitVec 8) : Int := toUnsigned l

/-- R67, R107: the constant of LOADC, sign-extended to a word. -/
def loadcConst (k : BitVec 8) : Word := sext k

/-- R67, R121, R122: the displacement of JMPZ and JMPN, -128 to 127. -/
def condDisp (l : BitVec 8) : Int := toSigned l

/-- R67, R123: the displacement of JMP, -2048 to 2047. -/
def jmpDisp (j : BitVec 12) : Int := toSigned j

/-- R67, R108: the address of MOVR: the base register read unsigned plus the field read signed, over the integers, so it
lies in -8 .. 65542 and is not reduced modulo 65536. -/
def movrAddr (b : RegIdx) (c : BitVec 4) (s : State) : Int := toUnsigned (s.reg b) + toSigned c

end Sys2Proof.Machine
end

