-- ==== Sys2Proof/Machine/Jumps.lean ====
section
/-! DEFINITION. JMPZ, JMPN and JMP (`43_jumps.md`). A taken jump does not also add 1 (R120, C1); the target is not
checked (R121). -/

namespace Sys2Proof.Machine

/-- R121. -/
def execJmpz (a : BitVec 4) (l : BitVec 8) (s : State) : Host.Outcome State Fault Refusal :=
  .next (if isZero (s.reg a) then s.jumpBy (condDisp l) else s.advance)

/-- R122. -/
def execJmpn (a : BitVec 4) (l : BitVec 8) (s : State) : Host.Outcome State Fault Refusal :=
  .next (if isNegative (s.reg a) then s.jumpBy (condDisp l) else s.advance)

/-- R123. -/
def execJmp (j : BitVec 12) (s : State) : Host.Outcome State Fault Refusal := .next (s.jumpBy (jmpDisp j))

end Sys2Proof.Machine
end

