-- ==== Sys2Proof/Machine/Transfer.lean ====
section
/-! DEFINITION. LOAD, STORE, LOADC and MOVR (`41_memory_transfer.md`). -/

namespace Sys2Proof.Machine

/-- R105. -/
def execLoad (a : BitVec 4) (l : BitVec 8) (s : State) : Host.Outcome State Fault Refusal := loadFrom a (absAddr l) s

/-- R106. -/
def execStore (a : BitVec 4) (l : BitVec 8) (s : State) : Host.Outcome State Fault Refusal := storeTo a (absAddr l) s

/-- R107. -/
def execLoadc (a : BitVec 4) (k : BitVec 8) (s : State) : Host.Outcome State Fault Refusal :=
  .next (s.setReg a (loadcConst k)).advance

/-- R108: the address is computed from the old base register; nothing is written to memory (C2). -/
def execMovr (a b c : BitVec 4) (s : State) : Host.Outcome State Fault Refusal := loadFrom a (movrAddr b c s) s

end Sys2Proof.Machine
end

