-- ==== Sys2Proof/Machine/Dispatch.lean ====
section
/-! DEFINITION. The dispatch of a decoded instruction to its meaning (R66, R91). -/

namespace Sys2Proof.Machine

def exec (i : Instr) (s : State) : Host.Outcome State Fault Refusal :=
  match i with
  | .load a l => Sys2Proof.Machine.execLoad a l s
  | .store a l => Sys2Proof.Machine.execStore a l s
  | .add a b c => Sys2Proof.Machine.execAdd a b c s
  | .loadc a k => Sys2Proof.Machine.execLoadc a k s
  | .sub a b c => Sys2Proof.Machine.execSub a b c s
  | .jmpz a l => Sys2Proof.Machine.execJmpz a l s
  | .jmpn a l => Sys2Proof.Machine.execJmpn a l s
  | .jmp j => Sys2Proof.Machine.execJmp j s
  | .movr a b c => Sys2Proof.Machine.execMovr a b c s
  | .reserved9 rest => Sys2Proof.Machine.execReserved9 rest s
  | .reserved10 rest => Sys2Proof.Machine.execReserved10 rest s
  | .reserved11 rest => Sys2Proof.Machine.execReserved11 rest s
  | .reserved12 rest => Sys2Proof.Machine.execReserved12 rest s
  | .reserved13 rest => Sys2Proof.Machine.execReserved13 rest s
  | .io a p d => Sys2Proof.Machine.execIo a p d s
  | .endOp => Sys2Proof.Machine.execEnd s

end Sys2Proof.Machine
end

