-- ==== Sys2Proof/Machine/Step.lean ====
section
/-! DEFINITION. One step of the engine (R91, R93). -/

namespace Sys2Proof.Machine

/-- R91, R93: fetch the word at `pc`, decode it, perform it, its `pc` update included. Off memory nothing is fetched and
the engine stays halted as it is (R97; log entry 6). -/
def step (s : State) : Host.Outcome State Fault Refusal :=
  match fetch s with
  | none => .next s
  | some w => exec (decode w) s

/-- `s` with the instruction word `w` of `nbits` bits (the higher bits 0) where `step` fetches next (log entry 15). -/
def State.withFetchWord (s : State) (nbits w : Nat) : State := s.placeAtPc (BitVec.ofNat 16 (w % 2 ^ nbits))

end Sys2Proof.Machine
end

