-- ==== Sys2Proof/Machine/AsmTokens.lean ====
section
/-! DEFINITION. The assembler's text: line preparation, tokens, token classes and key words (`45_assembler_pass1.md`
R141 to R146). -/

namespace Sys2Proof.Asm

/-! ## Lines and tokens -/

/-- R142, R143: white space. The source does not list the characters: space, tab, line feed, vertical tab, form feed and
carriage return. PRESUMED (log entry 7), unsafe. -/
def isSpace (c : Char) : Bool := c = ' ' || (decide (9 ≤ c.toNat) && decide (c.toNat ≤ 13))

/-- R143: what separates tokens: white space and commas. -/
def isSeparator (c : Char) : Bool := isSpace c || c = ','

/-- R142 (1): the line up to the first `//`. -/
def stripComment : Text → Text
  | [] => []
  | [c] => [c]
  | c :: d :: cs => if c = '/' ∧ d = '/' then [] else c :: stripComment (d :: cs)

/-- R142 (2): white space removed from both ends. -/
def trim (l : Text) : Text := ((l.dropWhile isSpace).reverse.dropWhile isSpace).reverse

/-- R142: the prepared line; `none` where nothing is left and the line is skipped. -/
def prepare (l : Text) : Option Text :=
  match trim (stripComment l) with
  | [] => none
  | c :: cs => some (c :: cs)

/-- The tokens of a text, where `cur` holds the characters of the token under way. -/
def tokenizeFrom : Text → Text → List Text
  | [], cur => if cur = [] then [] else [cur]
  | c :: cs, cur =>
    if isSeparator c then (if cur = [] then tokenizeFrom cs [] else cur :: tokenizeFrom cs [])
    else tokenizeFrom cs (cur ++ [c])

/-- R143: split on white space and commas, empty runs discarded. -/
def tokenize (l : Text) : List Text := tokenizeFrom l []

/-! ## Token classes -/

/-- R144: an ASCII digit. -/
def isDigitChar (c : Char) : Bool := decide ('0'.toNat ≤ c.toNat) && decide (c.toNat ≤ '9'.toNat)

/-- R144: an ASCII letter. -/
def isLetterChar (c : Char) : Bool :=
  (decide ('A'.toNat ≤ c.toNat) && decide (c.toNat ≤ 'Z'.toNat)) ||
    (decide ('a'.toNat ≤ c.toNat) && decide (c.toNat ≤ 'z'.toNat))

/-- R144: the decimal number of `digits`, one or more of `0` to `9`. -/
def digitsValue (l : Text) : Option Nat :=
  if l ≠ [] ∧ l.all isDigitChar then some (l.foldl (fun acc c => 10 * acc + (c.toNat - '0'.toNat)) 0) else none

/-- R144: an optional `-`, then digits. -/
def signedValue : Text → Option Int
  | [] => none
  | c :: cs =>
    if c = '-' then (digitsValue cs).map (fun n : Nat => -(n : Int))
    else (digitsValue (c :: cs)).map (fun n : Nat => (n : Int))

/-- R144: the label shape: an alphabetic first character, then alphanumeric characters or `_`. -/
def isLabelShape : Text → Bool
  | [] => false
  | c :: cs => isLetterChar c && cs.all (fun d => isLetterChar d || isDigitChar d || d = '_')

/-- The text after the character `p`, where the token begins with it. -/
def after (p : Char) : Text → Option Text
  | [] => none
  | c :: cs => if c = p then some cs else none

/-- R144: the classes with their values; `other` is a token of no class (U13). -/
inductive TokenClass where
  | register (idx : Nat)
  | device (idx : Nat)
  | port (idx : Nat)
  | constant (n : Int)
  | address (name : Text)
  | number (n : Int)
  | label (name : Text)
  | other
deriving DecidableEq, Repr

/-- R144: `R` then digits. -/
def asRegister (t : Text) : Option TokenClass := ((after 'R' t).bind digitsValue).map .register

/-- R144: `D` then digits. -/
def asDevice (t : Text) : Option TokenClass := ((after 'D' t).bind digitsValue).map .device

/-- R144: `P` then digits. -/
def asPort (t : Text) : Option TokenClass := ((after 'P' t).bind digitsValue).map .port

/-- R144: `#` then an optional `-` then digits. -/
def asConstant (t : Text) : Option TokenClass := ((after '#' t).bind signedValue).map .constant

/-- R144, R145: `@` then a string of the label shape alone, so `@R1` names the label `R1`. -/
def asAddress (t : Text) : Option TokenClass :=
  ((after '@' t).bind (fun n => if isLabelShape n then some n else none)).map .address

/-- R144: an optional `-` then digits. -/
def asNumber (t : Text) : Option TokenClass := (signedValue t).map .number

/-- R144: the label shape. -/
def asLabel (t : Text) : Option TokenClass := if isLabelShape t then some (.label t) else none

/-- R145: the first class that fits, in the fixed priority order. -/
def classify (t : Text) : TokenClass :=
  ((asRegister t).or <| (asDevice t).or <| (asPort t).or <| (asConstant t).or <| (asAddress t).or <|
    (asNumber t).or (asLabel t)).getD .other

/-! ## Key words -/

/-- R151: the eight mnemonics. -/
inductive Mnemonic where
  | add | sub | mov | movr | jmpz | jmpn | jmp | endOp
deriving DecidableEq, Repr

/-- R146: the spelling of a mnemonic, matched exactly. -/
def Mnemonic.text : Mnemonic → Text
  | .add => ['A', 'D', 'D']
  | .sub => ['S', 'U', 'B']
  | .mov => ['M', 'O', 'V']
  | .movr => ['M', 'O', 'V', 'R']
  | .jmpz => ['J', 'M', 'P', 'Z']
  | .jmpn => ['J', 'M', 'P', 'N']
  | .jmp => ['J', 'M', 'P']
  | .endOp => ['E', 'N', 'D']

/-- R151: all the mnemonics. -/
def mnemonics : List Mnemonic := [.add, .sub, .mov, .movr, .jmpz, .jmpn, .jmp, .endOp]

/-- R146, R151: the mnemonic a token spells. -/
def mnemonicOf (t : Text) : Option Mnemonic := mnemonics.find? (fun m => m.text = t)

/-- R146: the data directive. -/
def kwWord : Text := ['W', 'O', 'R', 'D']

/-- R146: the data segment marker. -/
def kwData : Text := ['.', 'd', 'a', 't', 'a']

/-- R146: the text segment marker. -/
def kwText : Text := ['.', 't', 'e', 'x', 't']

end Sys2Proof.Asm
end

