-- ==== Sys2Proof/Machine/AsmPass1.lean ====
section
/-! DEFINITION. Pass 1 and the label table (`45_assembler_pass1.md` R150 to R163), and the assembler's errors
(`60_exceptions.md` R202, R205). -/

namespace Sys2Proof.Asm

/-- R205: the fatal errors with the data they record. The line is the prepared line (R142) that pass 1 is given
(log entry 8). -/
inductive AsmError where
  | unknownInstruction (token : Text) (line : Text)
  | unknownDataDirective (token : Text) (line : Text)
  | formatError (mnemonic : Text) (line : Text)
  | unknownLabel (line : Text)
deriving DecidableEq, Repr

/-- R12, R150: label names with their values, one entry for each name. -/
abbrev LabelTable := List (Text × Nat)

/-- R152: `T[name] <- v`; the last write for a name wins. -/
def LabelTable.set : LabelTable → Text → Nat → LabelTable
  | [], name, v => [(name, v)]
  | e :: es, name, v => if e.1 = name then (name, v) :: es else e :: LabelTable.set es name v

/-- R172: exact, case-sensitive lookup. -/
def LabelTable.find (t : LabelTable) (name : Text) : Option Nat :=
  match t with
  | [] => none
  | e :: es => if e.1 = name then some e.2 else LabelTable.find es name

/-- R150: the segment pass 1 is in. -/
inductive Segment where
  | data | text
deriving DecidableEq, Repr

/-- R156: an entry of the Text Segment: the tokens and the source line. -/
structure TextEntry where
  tokens : List Text
  line : Text
deriving DecidableEq, Repr

/-- R33, R150: the assembler's working state during one file. -/
structure Pass1 where
  seg : Segment
  /-- The data address counter. -/
  dc : Nat
  /-- The instruction address counter. -/
  ic : Nat
  /-- The text-label table. -/
  tl : LabelTable
  /-- The data-label table. -/
  dl : LabelTable
  /-- The Data Segment. -/
  ds : List Word
  /-- The Text Segment. -/
  ts : List TextEntry
deriving DecidableEq, Repr

/-- R150: the initial value. -/
def Pass1.start : Pass1 where
  seg := .text
  dc := 0
  ic := 0
  tl := []
  dl := []
  ds := []
  ts := []

/-- R151, R152: the label prefix, the trimmed text before the first colon, and the trimmed rest; no prefix and the whole
line where there is no colon. -/
def splitLabel (line : Text) : Option Text × Text :=
  if ':' ∈ line then
    (some (trim (line.takeWhile (fun c => c ≠ ':'))), trim ((line.dropWhile (fun c => c ≠ ':')).drop 1))
  else (none, line)

/-- R152: the label is bound to the counter of the current segment, before the line's own content is counted. -/
def bindLabel (name : Option Text) (st : Pass1) : Pass1 :=
  match name with
  | none => st
  | some n =>
    match st.seg with
    | .text => { st with tl := st.tl.set n st.ic }
    | .data => { st with dl := st.dl.set n st.dc }

/-- R155: the words of a `WORD` line; a value of another class than number is a format error naming `WORD`. -/
def dataWords (line : Text) : List Text → Except AsmError (List Word)
  | [] => .ok []
  | v :: vs =>
    match classify v with
    | .number n =>
      match dataWords line vs with
      | .ok ws => .ok (trunc 16 n :: ws)
      | .error e => .error e
    | _ => .error (.formatError kwWord line)

/-- R151, R154 to R156: the content of a line after its label, as tokens `t :: vs`. -/
def parseContent (st : Pass1) (t : Text) (vs : List Text) (line : Text) : Except AsmError Pass1 :=
  if t = kwData ∧ vs = [] then .ok { st with seg := .data }
  else if t = kwText ∧ vs = [] then .ok { st with seg := .text }
  else
    match st.seg with
    | .data =>
      if t = kwWord then
        match dataWords line vs with
        | .ok ws => .ok { st with ds := st.ds ++ ws, dc := st.dc + ws.length }
        | .error e => .error e
      else .error (.unknownDataDirective t line)
    | .text =>
      match mnemonicOf t with
      | some _ => .ok { st with ts := st.ts ++ [{ tokens := t :: vs, line := line }], ic := st.ic + 1 }
      | none => .error (.unknownInstruction t line)

/-- R151: one prepared line; a line with a label only (R153) binds it and emits nothing. -/
def parseLine (st : Pass1) (line : Text) : Except AsmError Pass1 :=
  let parts := splitLabel line
  let st := bindLabel parts.1 st
  match tokenize parts.2 with
  | [] => .ok st
  | t :: vs => parseContent st t vs line

/-- R151: pass 1 over prepared lines, in order, stopped by the first error. -/
def parseLines : List Text → Pass1 → Except AsmError Pass1
  | [], st => .ok st
  | l :: ls, st =>
    match parseLine st l with
    | .ok st' => parseLines ls st'
    | .error e => .error e

/-- R140, R142: pass 1 over the lines of a source file. -/
def pass1 (lines : List Text) : Except AsmError Pass1 := parseLines (lines.filterMap prepare) Pass1.start

/-- R160, R161: the label table of pass 2: the text labels, then the data labels written over them, their values raised by
the instruction count `N` in unified mode. -/
def mergeLabels (unified : Bool) (n : Nat) (tl : LabelTable) : LabelTable → LabelTable
  | [] => tl
  | e :: es => mergeLabels unified n (tl.set e.1 (if unified then e.2 + n else e.2)) es

/-- R160: `LT` of a finished pass 1. -/
def Pass1.labels (st : Pass1) (unified : Bool) : LabelTable := mergeLabels unified st.ic st.tl st.dl

end Sys2Proof.Asm
end

