-- ==== Sys2Proof/Machine/AsmPass2.lean ====
section
/-! DEFINITION. Pass 2: operand resolution, the MOV pseudo-instruction and the output stream
(`46_assembler_pass2.md` R170 to R192), and the assembler as one function (R140). -/

namespace Sys2Proof.Asm

/-- R172: `addr(name)`, or the unknown-label error naming the line. -/
def addrOf (lt : LabelTable) (line : Text) (name : Text) : Except AsmError Int :=
  match lt.find name with
  | some v => .ok v
  | none => .error (.unknownLabel line)

/-- R187: the displacement of a label operand of the jump at index `i`: `addr(label) − i`. -/
def labelDisp (lt : LabelTable) (i : Nat) (line : Text) (name : Text) : Except AsmError Int :=
  (addrOf lt line name).map (fun v => v - i)

/-- R174. -/
def resolveAdd (cs : List TokenClass) (line : Text) : Except AsmError Operation :=
  match cs with
  | [.register a, .register b, .register c] => .ok (.add a b c)
  | _ => .error (.formatError Mnemonic.add.text line)

/-- R174. -/
def resolveSub (cs : List TokenClass) (line : Text) : Except AsmError Operation :=
  match cs with
  | [.register a, .register b, .register c] => .ok (.sub a b c)
  | _ => .error (.formatError Mnemonic.sub.text line)

/-- R175. -/
def resolveEnd (cs : List TokenClass) (line : Text) : Except AsmError Operation :=
  match cs with
  | [] => .ok .endOp
  | _ => .error (.formatError Mnemonic.endOp.text line)

/-- R176 to R184: the seven forms of MOV, destination first; every other line is a format error. -/
def resolveMov (lt : LabelTable) (cs : List TokenClass) (line : Text) : Except AsmError Operation :=
  match cs with
  | [.register a, .constant n] => .ok (.loadc a n)
  | [.register a, .address name] => (addrOf lt line name).map (.loadc a)
  | [.register a, .label name] => (addrOf lt line name).map (.load a)
  | [.register a, .number n] => .ok (.load a n)
  | [.label name, .register a] => (addrOf lt line name).map (.store a)
  | [.number n, .register a] => .ok (.store a n)
  | [.device n, .register a, .port k] => .ok (.io a k n)
  | _ => .error (.formatError Mnemonic.mov.text line)

/-- R185. -/
def resolveMovr (lt : LabelTable) (cs : List TokenClass) (line : Text) : Except AsmError Operation :=
  match cs with
  | [.register a, .register b, .constant n] => .ok (.movr a b n)
  | [.register a, .register b, .address name] => (addrOf lt line name).map (.movr a b)
  | _ => .error (.formatError Mnemonic.movr.text line)

/-- R186 to R188: a number is used as written. -/
def resolveJmpz (lt : LabelTable) (i : Nat) (cs : List TokenClass) (line : Text) : Except AsmError Operation :=
  match cs with
  | [.register a, .label name] => (labelDisp lt i line name).map (.jmpz a)
  | [.register a, .number n] => .ok (.jmpz a n)
  | _ => .error (.formatError Mnemonic.jmpz.text line)

/-- R186 to R188. -/
def resolveJmpn (lt : LabelTable) (i : Nat) (cs : List TokenClass) (line : Text) : Except AsmError Operation :=
  match cs with
  | [.register a, .label name] => (labelDisp lt i line name).map (.jmpn a)
  | [.register a, .number n] => .ok (.jmpn a n)
  | _ => .error (.formatError Mnemonic.jmpn.text line)

/-- R187 to R189. -/
def resolveJmp (lt : LabelTable) (i : Nat) (cs : List TokenClass) (line : Text) : Except AsmError Operation :=
  match cs with
  | [.label name] => (labelDisp lt i line name).map .jmp
  | [.number n] => .ok (.jmp n)
  | _ => .error (.formatError Mnemonic.jmp.text line)

/-- R170: dispatch on the mnemonic; `cs` are the classes of the tokens after it. The shape is checked before any label is
looked up (R206). -/
def resolveOperands (m : Mnemonic) (lt : LabelTable) (i : Nat) (cs : List TokenClass) (line : Text) :
    Except AsmError Operation :=
  match m with
  | .add => resolveAdd cs line
  | .sub => resolveSub cs line
  | .mov => resolveMov lt cs line
  | .movr => resolveMovr lt cs line
  | .jmpz => resolveJmpz lt i cs line
  | .jmpn => resolveJmpn lt i cs line
  | .jmp => resolveJmp lt i cs line
  | .endOp => resolveEnd cs line

/-- R170: the operation of the Text Segment entry with address `i`. Pass 1 admits only entries whose first token is a
mnemonic, so the two other cases do not arise from a source file; they answer the pass 1 error. -/
def resolve (lt : LabelTable) (i : Nat) (e : TextEntry) : Except AsmError Operation :=
  match e.tokens with
  | [] => .error (.unknownInstruction [] e.line)
  | t :: vs =>
    match mnemonicOf t with
    | some m => resolveOperands m lt i (vs.map classify) e.line
    | none => .error (.unknownInstruction t e.line)

/-- R170: the code words of the entries from address `i` on, each entry one word, stopped by the first error. -/
def codeWords (lt : LabelTable) : Nat → List TextEntry → Except AsmError (List Word)
  | _, [] => .ok []
  | i, e :: es =>
    match resolve lt i e with
    | .ok op =>
      match codeWords lt (i + 1) es with
      | .ok ws => .ok (encodeOp op :: ws)
      | .error err => .error err
    | .error err => .error err

/-- R170, R190: the output: the code, then the Data Segment in unified mode only. -/
def assemble (ts : List TextEntry) (ds : List Word) (lt : LabelTable) (unified : Bool) : Except AsmError (List Word) :=
  match codeWords lt 0 ts with
  | .ok code => .ok (code ++ (if unified then ds else []))
  | .error e => .error e

/-- R140: the assembler: pass 1 over all lines, then pass 2 over the Text Segment; on an error the error alone. -/
def assembleFile (lines : List Text) (unified : Bool) : Except AsmError (List Word) :=
  match pass1 lines with
  | .ok st => assemble st.ts st.ds (st.labels unified) unified
  | .error e => .error e

end Sys2Proof.Asm
end

