-- ==== Sys2Proof/Machine/Engine.lean ====
section
/-! DEFINITION. The engine's one entry point, the `step` call with a budget (`40_step_loop.md` R90, R93). `step` of
Machine/Step.lean is one iteration of its loop; a halted iteration leaves the state as it is. -/

namespace Sys2Proof.Machine

/-- What a `step` call comes to. The state holds the returned `pc` (R35) and the reports of the call (R203). -/
inductive CallResult where
  /-- The call returned: its budget was spent or the engine is halted. -/
  | returned (s : State)
  /-- R98: the call ended in a faulted state: `s` is the state before the faulting instruction, so `pc` is its address and
  earlier instructions of the call keep their effects. No further step is defined from it, and only a load clears it (D30;
  `hostNext`; log entry 12). -/
  | faulted (r : Fault) (s : State)
  /-- No meaning for the instruction at `pc`; it does not occur in this model. -/
  | refused (r : Refusal) (s : State)
deriving DecidableEq, Repr

/-- R93: the loop, with the tests in the order of R206: budget, `pc` bounds, fetch, END, execute. -/
def stepLoop : Nat → State → CallResult
  | 0, s => .returned s
  | n + 1, s =>
    match fetch s with
    | none => .returned s
    | some w =>
      match decode w with
      | .endOp => .returned s
      | i =>
        match exec i s with
        | .next t => stepLoop n t
        | .fault r => .faulted r s
        | .refused r => .refused r s

/-- R90, R94: `step(memory, registers, ports, pc, count)`: memory, registers and ports are those of `s`, the `pc`
argument is written into the state (R35; log entry 9), and the call's report list begins empty (R203). -/
def stepCall (pc : Int) (count : Nat) (s : State) : CallResult := stepLoop count { s with pc := pc, reports := [] }

end Sys2Proof.Machine
end

