-- ==== Sys2Proof/Machine/Conditions.lean ====
section
/-! DEFINITION. The complete list of conditions (`60_exceptions.md` R202), one constructor for each row of its table with
what the row says is recorded, and which of them a `step` call and an assembly meet. -/

namespace Sys2Proof.Machine

/-- R202: the conditions of the engine and of the assembler. -/
inductive Condition where
  /-- R203: the address and the word of a reserved word executed. -/
  | unknownOpcode (addr : Int) (word : Word)
  /-- R204: the data address outside memory. -/
  | memBounds (addr : Int)
  /-- R205: the first token of a `.text` line, and the line. -/
  | unknownInstruction (token line : Text)
  /-- R205: the first token of a `.data` line, and the line. -/
  | unknownDataDirective (token line : Text)
  /-- R205: the mnemonic (or `WORD`) and the line. -/
  | formatError (mnemonic line : Text)
  /-- R205: the line. -/
  | unknownLabel (line : Text)
  /-- R96, R132: END was fetched; the address the call returns. -/
  | haltedAtEnd (addr : Int)
  /-- R97: the `pc` outside memory that the call returns. -/
  | haltedOffMemory (pc : Int)
deriving DecidableEq, Repr

/-- R202: the answers of the table's column `fatal?`. -/
inductive Severity where
  /-- The call goes on. -/
  | nonFatal
  /-- The run stops as a fault. -/
  | stopsAsFault
  /-- The assembly of the file stops with no output. -/
  | fatal
  /-- A normal end of the call. -/
  | notAnError
deriving DecidableEq, Repr

/-- R202: the column `fatal?`. -/
def Condition.severity : Condition → Severity
  | .unknownOpcode _ _ => .nonFatal
  | .memBounds _ => .stopsAsFault
  | .unknownInstruction _ _ => .fatal
  | .unknownDataDirective _ _ => .fatal
  | .formatError _ _ => .fatal
  | .unknownLabel _ => .fatal
  | .haltedAtEnd _ => .notAnError
  | .haltedOffMemory _ => .notAnError

/-- R203: the condition of a report. -/
def Report.condition (r : Report) : Condition := .unknownOpcode r.addr r.word

/-- R204: the condition of a fault. -/
def Fault.condition : Fault → Condition
  | .memBounds addr => .memBounds addr

/-- R92, R93: the halt that an iteration of the loop with budget left meets at a state; none where the engine is running. -/
def haltCondition (s : State) : Option Condition :=
  if offMemory s then some (.haltedOffMemory s.pc) else if atEnd s then some (.haltedAtEnd s.pc) else none

/-- R93, R202: the halt that ends a loop; none where it ends by its budget (nothing is fetched then, D9), even
on a halted `pc` (log entry 18), or by a fault. -/
def loopHalt : Nat → State → Option Condition
  | 0, _ => none
  | n + 1, s =>
    match haltCondition s with
    | some c => some c
    | none =>
      match step s with
      | .next t => loopHalt n t
      | .fault _ => none
      | .refused _ => none

/-- R202: the conditions that a `step` call meets, in order: its reports, then the fault or the halt that ends it. -/
def callConditions (pc : Int) (count : Nat) (s : State) : List Condition :=
  match stepCall pc count s with
  | .returned t => t.reports.map Report.condition ++ (loopHalt count { s with pc := pc, reports := [] }).toList
  | .faulted r t => t.reports.map Report.condition ++ [r.condition]
  | .refused _ t => t.reports.map Report.condition

/-- R205: the condition of an assembler error. -/
def asmCondition : Asm.AsmError → Condition
  | .unknownInstruction token line => .unknownInstruction token line
  | .unknownDataDirective token line => .unknownDataDirective token line
  | .formatError mnemonic line => .formatError mnemonic line
  | .unknownLabel line => .unknownLabel line

/-- R202, R206: the condition that the assembly of a file ends in; none where it puts out words. -/
def assemblyCondition (lines : List Text) (unified : Bool) : Option Condition :=
  match Asm.assembleFile lines unified with
  | .ok _ => none
  | .error e => some (asmCondition e)

end Sys2Proof.Machine
end

