-- ==== Sys2Proof/Machine/Loader.lean ====
section
/-! DEFINITION. The text form of the word stream and the lines a loader accepts (`20_memory.md` R51, R52). -/

namespace Sys2Proof.Machine

/-- R52: the 16-character text of a word: leftmost character bit 15, rightmost bit 0. -/
def wordText (w : Word) : Text := (List.range 16).map (fun k => if w.getLsbD (15 - k) then '1' else '0')

/-- The number a sequence of `0` and `1` characters writes, most significant first; `none` for another character. -/
def bitsValue : Text → Nat → Option Nat
  | [], acc => some acc
  | c :: cs, acc =>
    if c = '0' then bitsValue cs (2 * acc) else if c = '1' then bitsValue cs (2 * acc + 1) else none

/-- R51: what a loader makes of one line. -/
inductive LoaderLine where
  /-- The line does not have 16 characters: skipped, no error, no address. -/
  | skipped
  | word (w : Word)
  /-- U9: 16 characters, not all `0` or `1`: the source says nothing, and the text is refused. -/
  | refused
deriving DecidableEq, Repr

/-- R51, U9. -/
def loaderLine (l : Text) : LoaderLine :=
  if l.length ≠ 16 then .skipped
  else match bitsValue l 0 with
    | some n => .word (BitVec.ofNat 16 n)
    | none => .refused

/-- R51: the image a text gives, the `k`-th accepted line at address `k`; `none` where a line is refused
(U9; log entry 11). -/
def loadText : List Text → Option (List Word)
  | [] => some []
  | l :: ls =>
    match loaderLine l with
    | .skipped => loadText ls
    | .word w => (loadText ls).map (fun ws => w :: ws)
    | .refused => none

end Sys2Proof.Machine
end

