-- ==== Sys2Proof/Machine/HostActions.lean ====
section
/-! DEFINITION. What the host can do to the engine, and only between `step` calls (`60_exceptions.md` R210). The argument
types leave out what the spec gives no meaning: a port above 7, a value of more than 16 bits, a negative budget (U10,
U11; log entry 13). -/

namespace Sys2Proof.Machine

/-- R210: the host's moves. -/
inductive HostAction where
  /-- R220: load an image. -/
  | load (img : List Word)
  /-- R222: a load that fails. -/
  | loadFailed
  /-- R210: one `step` call from the `pc` the host kept. -/
  | step (count : Nat)
  /-- R34, R90: one `step` call from a `pc` the caller passes. -/
  | stepFrom (pc : Int) (count : Nat)
  /-- R210: `port[k] <- v`. -/
  | writePort (k : PortIdx) (v : Word)
  /-- R210: read ports, registers, memory or `pc`. -/
  | inspect
deriving DecidableEq, Repr

/-- R210: `port[k] <- v` by the host; nothing else changes. -/
def hostWritePort (k : PortIdx) (v : Word) (s : State) : State := s.setPort k v

/-- R210, R220, R222: the effect of a host move. -/
def hostAct (act : HostAction) (s : State) : CallResult :=
  match act with
  | .load img => .returned (State.load img)
  | .loadFailed => .returned s
  | .step count => stepCall s.pc count s
  | .stepFrom pc count => stepCall pc count s
  | .writePort k v => .returned (hostWritePort k v s)
  | .inspect => .returned s

/-- R98, R210, D30: a host move after a call that stopped in the state `s`, where `stopped` says how: a load clears the
stop, a port write and a look have their effect on a state that stays stopped, a failed load changes nothing (R222), and no
step is defined, so that a `step` call leaves the stop as it is (log entry 12). -/
def hostActStopped (act : HostAction) (stopped : State → CallResult) (s : State) : CallResult :=
  match act with
  | .load img => .returned (State.load img)
  | .writePort k v => stopped (hostWritePort k v s)
  | .loadFailed => stopped s
  | .step _ => stopped s
  | .stepFrom _ _ => stopped s
  | .inspect => stopped s

/-- R210: one host move after what the moves before it came to. -/
def hostNext (act : HostAction) : CallResult → CallResult
  | .returned s => hostAct act s
  | .faulted r s => hostActStopped act (.faulted r) s
  | .refused r s => hostActStopped act (.refused r) s

/-- R210: a sequence of host moves; a fault lasts until the next load (D30). -/
def hostRun (acts : List HostAction) (s : State) : CallResult :=
  acts.foldl (fun r act => hostNext act r) (.returned s)

end Sys2Proof.Machine
end

