-- ==== Sys2Proof/Safety.lean ====
section
/-! DEFINITION. What counts as a good state and a safe run, and what "unchanged" means, in the terms claims use. -/

namespace Sys2Proof.Machine

/-- The state invariant: memory is in its one canonical form, with every listed word inside `[0, MEM_LEN)` (R32). It is
the only relation between fields of a state that the spec's types do not already give: every value of every register,
port and `pc` is legal (R21, R25, R30). -/
def State.wf (s : State) : Bool := s.mem.wf

/-- Every register but `a` holds what it held. -/
def SameRegsBut (a : RegIdx) (s t : State) : Prop := ∀ r, r ≠ a → t.reg r = s.reg r

/-- Every register holds what it held. -/
def SameRegs (s t : State) : Prop := ∀ r, t.reg r = s.reg r

/-- Every port holds what it held. -/
def SamePorts (s t : State) : Prop := ∀ k, t.port k = s.port k

/-- Every port but `k` holds what it held. -/
def SamePortsBut (k : PortIdx) (s t : State) : Prop := ∀ k', k' ≠ k → t.port k' = s.port k'

/-- Memory has the same length, and every address, inside memory or outside it, reads as it did. -/
def SameMemory (s t : State) : Prop := t.mem.len = s.mem.len ∧ ∀ addr : Int, t.mem.read addr = s.mem.read addr

/-- Memory has the same length, and every address but `a` reads as it did. -/
def SameMemoryBut (a : Int) (s t : State) : Prop :=
  t.mem.len = s.mem.len ∧ ∀ addr : Int, addr ≠ a → t.mem.read addr = s.mem.read addr

/-- R133: from `s` to `t` the word `w` at `pc` was reported, `pc` went to the next address, and nothing else changed. -/
def ReportsAndAdvances (w : Word) (s t : State) : Prop :=
  t.reports = s.reports ++ [{ addr := s.pc, word := w }] ∧ t.pc = s.pc + 1 ∧ SameRegs s t ∧ SamePorts s t ∧
    SameMemory s t

/-- R203: a call is clean when it returned and reported no reserved word. -/
def CallResult.clean : CallResult → Bool
  | .returned s => s.reports = []
  | .faulted _ _ => false
  | .refused _ _ => false

/-- R101: a run has ended when a call returned with the engine halted. DESIGN CHOICE (log entry 18), safe: a call whose
budget runs out exactly on a halted `pc` counts as ended, although it fetched nothing there (`loopHalt` gives it no halt). -/
def CallResult.ended : CallResult → Bool
  | .returned s => halted s
  | .faulted _ _ => false
  | .refused _ _ => false

end Sys2Proof.Machine

namespace Sys2Proof.Asm

/-! The shapes of R144's table, as claims about token classes say them: over characters, apart from the classifier. -/

/-- R144: an ASCII digit. -/
def Digit (c : Char) : Prop := '0' ≤ c ∧ c ≤ '9'

/-- R144: an ASCII letter. -/
def Letter (c : Char) : Prop := ('A' ≤ c ∧ c ≤ 'Z') ∨ ('a' ≤ c ∧ c ≤ 'z')

/-- R144: one or more digits that write the decimal number `k`, most significant first. -/
def Decimal (t : Text) (k : Nat) : Prop :=
  t ≠ [] ∧ (∀ c ∈ t, Digit c) ∧ k = Nat.ofDigits 10 (t.reverse.map (fun c => c.toNat - 48))

/-- R144: an optional `-`, then digits: the signed decimal number `n`. -/
def SignedDecimal (t : Text) (n : Int) : Prop :=
  (∃ k, Decimal t k ∧ n = k) ∨ (∃ ds k, t = '-' :: ds ∧ Decimal ds k ∧ n = -(k : Int))

/-- R144: an alphabetic first character, then alphanumeric characters or `_`. -/
def LabelShape (t : Text) : Prop :=
  ∃ c cs, t = c :: cs ∧ Letter c ∧ ∀ d ∈ cs, Letter d ∨ Digit d ∨ d = '_'

end Sys2Proof.Asm
end

