-- ==== Sys2Proof/Certificates/Slice0/Obligations.lean ====
section
/-! DEFINITION. The statements for the provers. Each docstring names the rule or section of spec/ it formalises; where a
clause rests on a decision the spec marks as its own (92_eei_decisions.md) or on a choice of the model (a log entry), the
docstring says so. `0x0#4 ++ a ++ l` writes a word out as the spec's encoding column does, high bits first. -/

open Sys2Proof Sys2Proof.Machine Sys2Proof.Asm

/-! ## The word model, the decoder and the encoder -/

/-- R9: the unsigned and signed readings of a `W`-bit value, the source's definition of the signed one by complement, sign
and zero extension, and reduction modulo `2^W`. -/
def Obligations.WordReadings : Prop :=
  ∀ (W : Nat) (v : BitVec W) (n : Int),
    toUnsigned v = v.toNat ∧ 0 ≤ toUnsigned v ∧ toUnsigned v < 2 ^ W ∧
      (v.getLsbD (W - 1) = false → toSigned v = v.toNat) ∧
      (v.getLsbD (W - 1) = true → toSigned v = v.toNat - 2 ^ W ∧ toSigned v = -((~~~v).toNat + 1)) ∧
      ((sext v).toNat : Int) = toSigned v % 65536 ∧ (W ≤ 16 → (zext v).toNat = v.toNat) ∧
      ((trunc W n).toNat : Int) = n % 2 ^ W

/-- R61: extraction of a sub-field at an offset from the most significant end and a width. -/
def Obligations.FieldExtraction : Prop :=
  ∀ (w : Word) (off width : Nat), 1 ≤ width → off + width ≤ 16 →
    (field w off width).toNat = w.toNat / 2 ^ (16 - off - width) % 2 ^ width

/-- 30_encoding.md R63 (the laws the source states) and R71: a number in the signed range of a width of at least one bit,
put into a field of that width and read back signed, is itself; so -1 reads back as -1 in every width. -/
def Obligations.SignedFieldReadsBack : Prop :=
  ∀ (W : Nat) (n : Int), 1 ≤ W → fitsSigned n W = true → toSigned (trunc W n) = n

/-- R72: the decoder on every word, its fields written as quotients and remainders of the word's number. -/
def Obligations.DecoderTotal : Prop :=
  ∀ (w : Word) (n : Nat), n = w.toNat →
    decode w =
      if n / 4096 = 0 then .load (BitVec.ofNat 4 (n / 256)) (BitVec.ofNat 8 n)
      else if n / 4096 = 1 then .store (BitVec.ofNat 4 (n / 256)) (BitVec.ofNat 8 n)
      else if n / 4096 = 2 then .add (BitVec.ofNat 4 (n / 256)) (BitVec.ofNat 4 (n / 16)) (BitVec.ofNat 4 n)
      else if n / 4096 = 3 then .loadc (BitVec.ofNat 4 (n / 256)) (BitVec.ofNat 8 n)
      else if n / 4096 = 4 then .sub (BitVec.ofNat 4 (n / 256)) (BitVec.ofNat 4 (n / 16)) (BitVec.ofNat 4 n)
      else if n / 4096 = 5 then .jmpz (BitVec.ofNat 4 (n / 256)) (BitVec.ofNat 8 n)
      else if n / 4096 = 6 then .jmpn (BitVec.ofNat 4 (n / 256)) (BitVec.ofNat 8 n)
      else if n / 4096 = 7 then .jmp (BitVec.ofNat 12 n)
      else if n / 4096 = 8 then .movr (BitVec.ofNat 4 (n / 256)) (BitVec.ofNat 4 (n / 16)) (BitVec.ofNat 4 n)
      else if n / 4096 = 9 then .reserved9 (BitVec.ofNat 12 n)
      else if n / 4096 = 10 then .reserved10 (BitVec.ofNat 12 n)
      else if n / 4096 = 11 then .reserved11 (BitVec.ofNat 12 n)
      else if n / 4096 = 12 then .reserved12 (BitVec.ofNat 12 n)
      else if n / 4096 = 13 then .reserved13 (BitVec.ofNat 12 n)
      else if n / 4096 = 14 then .io (BitVec.ofNat 4 (n / 256)) (BitVec.ofNat 3 (n / 32)) (BitVec.ofNat 1 (n / 16))
      else .endOp

/-- 30_encoding.md R70: the word of every operation, for integer operands of any size and sign, each reduced to its field
and placed; IO's combined field `(P << 1) | D` for indices of any size and sign, so for any field `n` whatever (`P = 0`).
That an integer which does not fit is reduced modulo its field's width is decision D2; that the two indices are kept apart
is log entry 14. -/
def Obligations.EncoderPacks : Prop :=
  ∀ a b c n p d : Int,
    ((encodeOp (.load a n)).toNat : Int) = 0 * 4096 + a % 16 * 256 + n % 256 ∧
      ((encodeOp (.store a n)).toNat : Int) = 1 * 4096 + a % 16 * 256 + n % 256 ∧
      ((encodeOp (.add a b c)).toNat : Int) = 2 * 4096 + a % 16 * 256 + b % 16 * 16 + c % 16 ∧
      ((encodeOp (.loadc a n)).toNat : Int) = 3 * 4096 + a % 16 * 256 + n % 256 ∧
      ((encodeOp (.sub a b c)).toNat : Int) = 4 * 4096 + a % 16 * 256 + b % 16 * 16 + c % 16 ∧
      ((encodeOp (.jmpz a n)).toNat : Int) = 5 * 4096 + a % 16 * 256 + n % 256 ∧
      ((encodeOp (.jmpn a n)).toNat : Int) = 6 * 4096 + a % 16 * 256 + n % 256 ∧
      ((encodeOp (.jmp n)).toNat : Int) = 7 * 4096 + n % 4096 ∧
      ((encodeOp (.movr a b n)).toNat : Int) = 8 * 4096 + a % 16 * 256 + b % 16 * 16 + n % 16 ∧
      ((encodeOp (.io a p d)).toNat : Int) =
        14 * 4096 + a % 16 * 256 + (((2 * p % 16).toNat ||| (d % 16).toNat : Nat) : Int) * 16 ∧
      ((encodeOp (.io a 0 n)).toNat : Int) = 14 * 4096 + a % 16 * 256 + n % 16 * 16 ∧
      (encodeOp .endOp).toNat = 15 * 4096

/-- 30_encoding.md R73 (a), for every instruction and every operand value: no bit of an encoding is dropped. R73 (a) leaves
the reserved instructions out, since the encoder never receives one (R69): that the law holds of them too, where `encode`
gives a reserved instruction the word it came from, is the model's choice (log entry 10). -/
def Obligations.DecodeOfEncode : Prop := ∀ i : Instr, decode (encode i) = i

/-- 30_encoding.md R73 (b) and (c), R68 (unused bits are written 0 and ignored: decision D7): the other direction for
words whose unused bits are 0, and words that differ in unused bits only decode alike. R73 (b) is for opcodes other than 9
to 13: that the reserved words are included is the model's choice (log entry 10). -/
def Obligations.EncodeOfDecode : Prop :=
  (∀ w : Word, (field w 0 4 = 14 → field w 12 4 = 0) → (field w 0 4 = 15 → field w 4 12 = 0) → encode (decode w) = w) ∧
    (∀ u v : BitVec 12, decode (0xF#4 ++ u) = decode (0xF#4 ++ v)) ∧
    (∀ (x : BitVec 8) (u v : BitVec 4), decode (0xE#4 ++ x ++ u) = decode (0xE#4 ++ x ++ v))

/-- 30_encoding.md R71: when every operand fits its field, decoding the word and reading each field by R67 gives back the
integers the encoder was given. -/
def Obligations.FittingOperandsReadBack : Prop :=
  ∀ op : Operation, op.fits = true → readBack (decode (encodeOp op)) = some op

/-- 95_test_vectors.md S9 and section 2.2: words written out from the encoding table decode to the instructions they stand
for. -/
def Obligations.SampleWordsDecode : Prop :=
  decode 0x0ABC = .load 10 0xBC ∧ decode 0x1ABC = .store 10 0xBC ∧ decode 0x2123 = .add 1 2 3 ∧
    decode 0x3ABC = .loadc 10 0xBC ∧ decode 0x4123 = .sub 1 2 3 ∧ decode 0x5ABC = .jmpz 10 0xBC ∧
    decode 0x6ABC = .jmpn 10 0xBC ∧ decode 0x7ABC = .jmp 0xABC ∧ decode 0x812D = .movr 1 2 0xD ∧
    decode 0x9ABC = .reserved9 0xABC ∧ decode 0xCFFF = .reserved12 0xFFF ∧ decode 0xE5D0 = .io 5 6 1 ∧
    decode 0xE02F = .io 0 1 0 ∧ decode 0xFABC = .endOp

/-! ## Reset and load -/

/-- 70_reset_and_hazards.md R221 with the empty image: what State.reset holds. Registers and ports 0 are stated; `pc` 0 is
decision D10; that reset is the load of an empty image, so that MEM_LEN is 0 and memory lists nothing, is the model's choice
(log entry 3); the empty report list is log entry 5. -/
def Obligations.ResetValues : Prop :=
  (∀ r, State.reset.reg r = 0) ∧ (∀ k, State.reset.port k = 0) ∧ State.reset.pc = 0 ∧ State.reset.mem.len = 0 ∧
    (∀ a : Int, State.reset.mem.read a = none) ∧ State.reset.reports = [] ∧ State.reset = State.load []

/-- 70_reset_and_hazards.md R220, R221: the state after the load of any image: registers and ports 0, `pc` 0 (decision
D10), MEM_LEN the length of the image and no word beyond it (decision D4), word `k` of the image at address `k`, no word
below address 0. That the report list is empty then is the model's choice (log entry 5). -/
def Obligations.LoadGivesImage : Prop :=
  ∀ img : List Word,
    (∀ r, (State.load img).reg r = 0) ∧ (∀ k, (State.load img).port k = 0) ∧ (State.load img).pc = 0 ∧
      (State.load img).mem.len = img.length ∧ (∀ k : Nat, (State.load img).mem.read k = img[k]?) ∧
      (∀ a : Int, a < 0 → (State.load img).mem.read a = none) ∧ (State.load img).reports = []

/-- R222: a load that fails changes nothing; a load that succeeds replaces all of the state, so that the state after it does
not depend on the state before. -/
def Obligations.LoadReplacesAll : Prop :=
  (∀ s, hostAct .loadFailed s = .returned s) ∧
    (∀ img s s', hostAct (.load img) s = hostAct (.load img) s') ∧
    (∀ img s, hostAct (.load img) s = .returned (State.load img))

/-! ## Invariants -/

/-- The model's invariant (10_state.md R32, log entry 2) holds at reset. -/
def Obligations.ResetWellFormed : Prop := State.reset.wf = true

/-- The model's invariant (10_state.md R32, log entry 2) holds after the load of any image. -/
def Obligations.LoadWellFormed : Prop := ∀ img : List Word, (State.load img).wf = true

/-- Every step keeps memory in its canonical form, inside `[0, MEM_LEN)` (10_state.md R32, log entry 2). -/
def Obligations.StepKeepsWellFormed : Prop := ∀ s t, s.wf = true → step s = .next t → t.wf = true

/-- Every host move, whole calls included, keeps it, in a returned and in a faulted state alike, and so does every sequence
of moves, those after a fault included (60_exceptions.md R210, log entries 2 and 12). -/
def Obligations.HostKeepsWellFormed : Prop :=
  (∀ act s, s.wf = true →
    (∀ t, hostAct act s = .returned t → t.wf = true) ∧ (∀ r t, hostAct act s = .faulted r t → t.wf = true)) ∧
    (∀ acts s, s.wf = true →
      (∀ t, hostRun acts s = .returned t → t.wf = true) ∧ (∀ r t, hostRun acts s = .faulted r t → t.wf = true))

/-! ## The instructions -/

/-- 41_memory_transfer.md R105, its case inside memory: LOAD's encoding, result and frame. -/
def Obligations.LoadCompletes : Prop :=
  ∀ (a : BitVec 4) (l : BitVec 8) (s : State), l.toNat < s.mem.len →
    decode (0x0#4 ++ a ++ l) = .load a l ∧
      ∃ t v, exec (.load a l) s = .next t ∧ s.mem.read l.toNat = some v ∧ t.reg a = v ∧ t.pc = s.pc + 1 ∧
        SameRegsBut a s t ∧ SamePorts s t ∧ SameMemory s t ∧ t.reports = s.reports

/-- 41_memory_transfer.md R106, its case inside memory: STORE's encoding, the one word written at the zero-extended field,
and the frame. That the word reads back needs memory in canonical form (StepKeepsWellFormed). -/
def Obligations.StoreCompletes : Prop :=
  ∀ (a : BitVec 4) (l : BitVec 8) (s : State), s.wf = true → l.toNat < s.mem.len →
    decode (0x1#4 ++ a ++ l) = .store a l ∧
      ∃ t, exec (.store a l) s = .next t ∧ t.mem.read (absAddr l) = some (s.reg a) ∧ absAddr l = l.toNat ∧
        t.pc = s.pc + 1 ∧ SameRegs s t ∧ SamePorts s t ∧ SameMemoryBut (absAddr l) s t ∧ t.reports = s.reports

/-- R107: LOADC's encoding, result and frame. -/
def Obligations.LoadcCompletes : Prop :=
  ∀ (a : BitVec 4) (k : BitVec 8) (s : State),
    decode (0x3#4 ++ a ++ k) = .loadc a k ∧
      ∃ t, exec (.loadc a k) s = .next t ∧
        ((t.reg a).toNat = if k.toNat < 128 then k.toNat else 0xFF00 + k.toNat) ∧ t.pc = s.pc + 1 ∧
        SameRegsBut a s t ∧ SamePorts s t ∧ SameMemory s t ∧ t.reports = s.reports

/-- 41_memory_transfer.md R108, its case inside memory (that the sum is not wrapped: decision D28): MOVR's encoding, result
and frame; `a` may equal `b`. -/
def Obligations.MovrCompletes : Prop :=
  ∀ (a b c : BitVec 4) (s : State) (addr : Int),
    addr = (s.reg b).toNat + (if c.toNat < 8 then (c.toNat : Int) else c.toNat - 16) → 0 ≤ addr → addr < s.mem.len →
    decode (0x8#4 ++ a ++ b ++ c) = .movr a b c ∧
      ∃ t v, exec (.movr a b c) s = .next t ∧ s.mem.read addr = some v ∧ t.reg a = v ∧ t.pc = s.pc + 1 ∧
        SameRegsBut a s t ∧ SamePorts s t ∧ SameMemory s t ∧ t.reports = s.reports

/-- 20_memory.md R43, R44 and 60_exceptions.md R204, all of them decision D5 (and D28 for the sum): LOAD, STORE and MOVR
outside memory stop with `MemBounds` of the address. -/
def Obligations.OutsideMemoryFaults : Prop :=
  (∀ (a : BitVec 4) (l : BitVec 8) (s : State), s.mem.len ≤ l.toNat →
      exec (.load a l) s = .fault (.memBounds l.toNat) ∧ exec (.store a l) s = .fault (.memBounds l.toNat)) ∧
    (∀ (a b c : BitVec 4) (s : State) (addr : Int),
      addr = (s.reg b).toNat + (if c.toNat < 8 then (c.toNat : Int) else c.toNat - 16) →
      (addr < 0 ∨ s.mem.len ≤ addr) → exec (.movr a b c) s = .fault (.memBounds addr))

/-- 42_arithmetic.md R115: ADD's encoding, result and frame; `a` may equal `b`, `c` or both. The result outside -32768 to
32767 is decision D3. -/
def Obligations.AddCompletes : Prop :=
  ∀ (a b c : BitVec 4) (s : State),
    decode (0x2#4 ++ a ++ b ++ c) = .add a b c ∧
      ∃ t, exec (.add a b c) s = .next t ∧
        t.reg a = BitVec.ofInt 16 ((s.reg b).toInt + (s.reg c).toInt) ∧ t.pc = s.pc + 1 ∧
        SameRegsBut a s t ∧ SamePorts s t ∧ SameMemory s t ∧ t.reports = s.reports

/-- 42_arithmetic.md R116: SUB's encoding, result, `x[b]` minus `x[c]`, and frame. The result outside -32768 to 32767 is
decision D3. -/
def Obligations.SubCompletes : Prop :=
  ∀ (a b c : BitVec 4) (s : State),
    decode (0x4#4 ++ a ++ b ++ c) = .sub a b c ∧
      ∃ t, exec (.sub a b c) s = .next t ∧
        t.reg a = BitVec.ofInt 16 ((s.reg b).toInt - (s.reg c).toInt) ∧ t.pc = s.pc + 1 ∧
        SameRegsBut a s t ∧ SamePorts s t ∧ SameMemory s t ∧ t.reports = s.reports

/-- 42_arithmetic.md R117 (decision D3): ADD and SUB are addition and subtraction modulo 65536 of the unsigned readings
too, and exact on the signed readings whenever the true result lies in -32768 to 32767. -/
def Obligations.ArithmeticModulo : Prop :=
  ∀ (a b c : BitVec 4) (s t : State),
    (exec (.add a b c) s = .next t →
      (t.reg a).toNat = ((s.reg b).toNat + (s.reg c).toNat) % 65536 ∧
        (-32768 ≤ (s.reg b).toInt + (s.reg c).toInt → (s.reg b).toInt + (s.reg c).toInt ≤ 32767 →
          (t.reg a).toInt = (s.reg b).toInt + (s.reg c).toInt)) ∧
      (exec (.sub a b c) s = .next t →
        (t.reg a).toNat = (65536 + (s.reg b).toNat - (s.reg c).toNat) % 65536 ∧
          (-32768 ≤ (s.reg b).toInt - (s.reg c).toInt → (s.reg b).toInt - (s.reg c).toInt ≤ 32767 →
            (t.reg a).toInt = (s.reg b).toInt - (s.reg c).toInt))

/-- 43_jumps.md R121: JMPZ's encoding, both cases, and frame. That a taken jump adds no further 1: conflict C1, decision
D1. -/
def Obligations.JmpzCompletes : Prop :=
  ∀ (a : BitVec 4) (l : BitVec 8) (s : State),
    decode (0x5#4 ++ a ++ l) = .jmpz a l ∧
      ∃ t, exec (.jmpz a l) s = .next t ∧
        (t.pc = if s.reg a = 0 then s.pc + (if l.toNat < 128 then (l.toNat : Int) else l.toNat - 256) else s.pc + 1) ∧
        SameRegs s t ∧ SamePorts s t ∧ SameMemory s t ∧ t.reports = s.reports

/-- 43_jumps.md R122: JMPN's encoding, both cases (zero is not negative), and frame. That a taken jump adds no further 1:
conflict C1, decision D1. -/
def Obligations.JmpnCompletes : Prop :=
  ∀ (a : BitVec 4) (l : BitVec 8) (s : State),
    decode (0x6#4 ++ a ++ l) = .jmpn a l ∧
      ∃ t, exec (.jmpn a l) s = .next t ∧
        (t.pc = if 0x8000 ≤ (s.reg a).toNat then s.pc + (if l.toNat < 128 then (l.toNat : Int) else l.toNat - 256)
          else s.pc + 1) ∧
        SameRegs s t ∧ SamePorts s t ∧ SameMemory s t ∧ t.reports = s.reports

/-- 43_jumps.md R123: JMP's encoding, target and frame; the target is not checked. That a jump adds no further 1: conflict
C1, decision D1. -/
def Obligations.JmpCompletes : Prop :=
  ∀ (j : BitVec 12) (s : State),
    decode (0x7#4 ++ j) = .jmp j ∧
      ∃ t, exec (.jmp j) s = .next t ∧
        t.pc = s.pc + (if j.toNat < 2048 then (j.toNat : Int) else j.toNat - 4096) ∧
        SameRegs s t ∧ SamePorts s t ∧ SameMemory s t ∧ t.reports = s.reports

/-- 44_io_end_reserved.md R130: IO's encoding, both directions, and frame. That bits 3:0 are ignored is decision D7. -/
def Obligations.IoCompletes : Prop :=
  (∀ (a : BitVec 4) (p : BitVec 3) (d : BitVec 1) (low : BitVec 4), decode (0xE#4 ++ a ++ p ++ d ++ low) = .io a p d) ∧
    (∀ (a : BitVec 4) (p : BitVec 3) (s : State),
      ∃ t, exec (.io a p 1) s = .next t ∧ t.port p = s.reg a ∧ t.pc = s.pc + 1 ∧
        SameRegs s t ∧ SamePortsBut p s t ∧ SameMemory s t ∧ t.reports = s.reports) ∧
    (∀ (a : BitVec 4) (p : BitVec 3) (s : State),
      ∃ t, exec (.io a p 0) s = .next t ∧ t.reg a = s.port p ∧ t.pc = s.pc + 1 ∧
        SameRegsBut a s t ∧ SamePorts s t ∧ SameMemory s t ∧ t.reports = s.reports)

/-- 44_io_end_reserved.md R132: END's encoding; it changes nothing, and the call returns whatever budget remains. That bits
11:0 are ignored is decision D7; that `exec` answers the same state, where the spec's call returns, is log entry 6. -/
def Obligations.EndCompletes : Prop :=
  (∀ low : BitVec 12, decode (0xF#4 ++ low) = .endOp) ∧ (∀ s, exec .endOp s = .next s) ∧ encode .endOp = 0xF000 ∧
    (∀ (s : State) (w : Word) (n : Nat), fetch s = some w → 0xF000 ≤ w.toNat → stepLoop n s = .returned s)

/-- 44_io_end_reserved.md R133: each reserved opcode's encoding, the report of the address and the word, the advance, and
frame. The report as an event at the end of a list is decision D8 and log entry 5. -/
def Obligations.ReservedCompletes : Prop :=
  ∀ (rest : BitVec 12) (s : State),
    (decode (0x9#4 ++ rest) = .reserved9 rest ∧
      ∃ t, exec (.reserved9 rest) s = .next t ∧ ReportsAndAdvances (0x9#4 ++ rest) s t) ∧
    (decode (0xA#4 ++ rest) = .reserved10 rest ∧
      ∃ t, exec (.reserved10 rest) s = .next t ∧ ReportsAndAdvances (0xA#4 ++ rest) s t) ∧
    (decode (0xB#4 ++ rest) = .reserved11 rest ∧
      ∃ t, exec (.reserved11 rest) s = .next t ∧ ReportsAndAdvances (0xB#4 ++ rest) s t) ∧
    (decode (0xC#4 ++ rest) = .reserved12 rest ∧
      ∃ t, exec (.reserved12 rest) s = .next t ∧ ReportsAndAdvances (0xC#4 ++ rest) s t) ∧
    (decode (0xD#4 ++ rest) = .reserved13 rest ∧
      ∃ t, exec (.reserved13 rest) s = .next t ∧ ReportsAndAdvances (0xD#4 ++ rest) s t)

/-! ## Whole-machine rules -/

/-- 30_encoding.md R75, 60_exceptions.md R200: every instruction, in every state, has a defined effect: it is never
refused, and a step never is. -/
def Obligations.NothingRefused : Prop := (∀ i s r, exec i s ≠ .refused r) ∧ (∀ s r, step s ≠ .refused r)

/-- 60_exceptions.md R206 (MemBounds itself is decision D5): only LOAD, STORE and MOVR can fault, only with `MemBounds`, and
only at an address outside memory. -/
def Obligations.OnlyDataAccessFaults : Prop :=
  ∀ i s r, exec i s = .fault r →
    ∃ addr : Int, r = .memBounds addr ∧ s.mem.read addr = none ∧
      ((∃ a l, i = .load a l ∧ addr = absAddr l) ∨ (∃ a l, i = .store a l ∧ addr = absAddr l) ∨
        ∃ a b c, i = .movr a b c ∧ addr = movrAddr b c s)

/-- 10_state.md R32, R20 (that MEM_LEN is fixed at load: decision D4; that MOVR writes no memory: conflict C2): no step
changes the length of memory, and a word of memory differs after an instruction only if it is STORE's own. -/
def Obligations.MemoryChangesOnlyByStore : Prop :=
  (∀ s t, step s = .next t → t.mem.len = s.mem.len) ∧
    ∀ i s t (addr : Int), exec i s = .next t → t.mem.read addr ≠ s.mem.read addr →
      ∃ a l, i = .store a l ∧ addr = absAddr l

/-- 10_state.md R20: a port differs after an instruction only if it is the port of an IO with `d = 1`. -/
def Obligations.OnlyOutboundIoWritesPorts : Prop :=
  ∀ i s t (k : BitVec 3), exec i s = .next t → t.port k ≠ s.port k → ∃ a, i = .io a k 1

/-- 10_state.md R20: a register differs after an instruction only if it is the destination of LOAD, ADD, LOADC, SUB, MOVR or
IO with `d = 0`. -/
def Obligations.RegisterWriters : Prop :=
  ∀ i s t (r : BitVec 4), exec i s = .next t → t.reg r ≠ s.reg r →
    (∃ l, i = .load r l) ∨ (∃ b c, i = .add r b c) ∨ (∃ k, i = .loadc r k) ∨ (∃ b c, i = .sub r b c) ∨
      (∃ b c, i = .movr r b c) ∨ (∃ p, i = .io r p 0)

/-- 60_exceptions.md R203 (the form of the report: decision D8, log entry 5): where the word fetched has opcode 9 to 13 a
step appends the one event of that word at its address; otherwise, and where nothing is fetched, the report list stays as
it was. -/
def Obligations.ReportsAreReservedWords : Prop :=
  ∀ s t, step s = .next t →
    (∀ w, fetch s = some w →
      t.reports =
        if 9 ≤ w.toNat / 4096 ∧ w.toNat / 4096 ≤ 13 then s.reports ++ [{ addr := s.pc, word := w }] else s.reports) ∧
    (fetch s = none → t.reports = s.reports)

/-- 40_step_loop.md R95 (a taken jump adds no further 1: conflict C1, decision D1): `pc` after a step, from the fetched word
alone. -/
def Obligations.PcAfterStep : Prop :=
  ∀ s t w, fetch s = some w → step s = .next t →
    t.pc =
      if w.toNat / 4096 = 5 ∧ s.reg (field w 4 4) = 0 then s.pc + (field w 8 8).toInt
      else if w.toNat / 4096 = 6 ∧ (s.reg (field w 4 4)).toInt < 0 then s.pc + (field w 8 8).toInt
      else if w.toNat / 4096 = 7 then s.pc + (field w 4 12).toInt
      else if w.toNat / 4096 = 15 then s.pc
      else s.pc + 1

/-- 60_exceptions.md R201: a program sees the ports only if it reads one with an inbound IO: an instruction that is none has
the same outcome whatever the ports hold, but for the ports themselves. -/
def Obligations.PortsSeenOnlyByInboundIo : Prop :=
  ∀ (i : Instr) (s : State) (ps : Vector Word 8), (∀ a p, i ≠ .io a p 0) →
    match exec i s, exec i { s with ports := ps } with
    | .next t, .next u =>
      u.regs = t.regs ∧ u.pc = t.pc ∧ u.mem = t.mem ∧ u.reports = t.reports ∧
        (∀ a k, i = .io a k 1 → u.port k = t.port k) ∧
        ∀ k, (∀ a, i ≠ .io a k 1) → u.port k = ({ s with ports := ps } : State).port k
    | .fault r, .fault r' => r = r'
    | _, _ => False

/-- 10_state.md R36, 60_exceptions.md R203 (the list is the model's own field, log entry 5): reports are an output that no
instruction reads: a call from a state with other reports ends in the same way, with the same events after them. -/
def Obligations.ReportsNeverRead : Prop :=
  ∀ (n : Nat) (s : State) (rs : List Report),
    match stepLoop n s, stepLoop n { s with reports := rs ++ s.reports } with
    | .returned t, .returned u => u = { t with reports := rs ++ t.reports }
    | .faulted r t, .faulted r' u => r' = r ∧ u = { t with reports := rs ++ t.reports }
    | _, _ => False

/-- 20_memory.md R55: a store is seen by the very next fetch: where a step performs a STORE to the address it then fetches
from, the next step performs the word stored. -/
def Obligations.StoreSeenByNextFetch : Prop :=
  ∀ (s t : State) (w : Word) (a : BitVec 4) (l : BitVec 8), s.wf = true → fetch s = some w → decode w = .store a l →
    step s = .next t → (l.toNat : Int) = s.pc + 1 → fetch t = some (s.reg a) ∧ step t = exec (decode (s.reg a)) t

/-! ## The loop -/

/-- R91: a fetched word is decoded and performed by its instruction's meaning; afterwards `pc` is one more unless the
instruction is of the jump family (or END, which halts). `step` adds nothing around it. -/
def Obligations.StepRunsDecoded : Prop :=
  ∀ (s : State) (w : Word), fetch s = some w →
    s.mem.read s.pc = some w ∧ step s = exec (decode w) s ∧
      ∀ t, step s = .next t → (∀ a l, decode w ≠ .jmpz a l) → (∀ a l, decode w ≠ .jmpn a l) → (∀ j, decode w ≠ .jmp j) →
        decode w ≠ .endOp → t.pc = s.pc + 1

/-- 40_step_loop.md R92: the engine is running exactly when `pc` is in `[0, MEM_LEN)` and the word there is not an END, and
halted otherwise. R97: with `pc` outside `[0, MEM_LEN)` the call returns that `pc` whatever the budget: no fault, no
report, no change. That `pc` is an integer and that below 0 is off memory too is decision D6; that a single step answers
the same state is log entry 6; that the call's report list starts empty is log entry 5. 60_exceptions.md R202: the halt at a
state is halted off memory or halted at END, with its `pc`, or none where the engine runs; a call that meets a halt returned
there, and a call that returned at a halt meets it with one more unit of budget (a call that ends by its budget fetches
nothing more, decision D9); and the conditions a call meets are its reports, then the halt or the fault that ends it. -/
def Obligations.OffMemoryHalts : Prop :=
  (∀ s : State,
    (s.mem.read s.pc = none → haltCondition s = some (.haltedOffMemory s.pc)) ∧
      (∀ w, s.mem.read s.pc = some w →
        haltCondition s = if w.toNat / 4096 = 15 then some (.haltedAtEnd s.pc) else none)) ∧
  (∀ (n : Nat) (s : State),
    (∀ c, loopHalt n s = some c → ∃ t, stepLoop n s = .returned t ∧ haltCondition t = some c) ∧
      (∀ t, stepLoop n s = .returned t → loopHalt (n + 1) s = haltCondition t)) ∧
  (∀ (pc : Int) (n : Nat) (s t : State),
    (stepCall pc n s = .returned t →
      callConditions pc n s =
        t.reports.map (fun e => .unknownOpcode e.addr e.word) ++
          (loopHalt n { s with pc := pc, reports := [] }).toList) ∧
      (∀ addr, stepCall pc n s = .faulted (.memBounds addr) t →
        callConditions pc n s = t.reports.map (fun e => .unknownOpcode e.addr e.word) ++ [.memBounds addr])) ∧
  (∀ s : State, (running s = true ↔ ∃ w, s.mem.read s.pc = some w ∧ w.toNat / 4096 ≠ 15) ∧
    (halted s = true ↔ running s = false)) ∧
  ∀ (s : State) (n : Nat), (s.pc < 0 ∨ s.mem.len ≤ s.pc) →
    fetch s = none ∧ step s = .next s ∧ stepLoop n s = .returned s ∧
      stepCall s.pc n s = .returned { s with reports := [] } ∧ halted s = true

/-- R96: at an END the call returns its address whatever budget remains, and a later call from there does the same and
changes nothing. A call does return here: its witness in the tests shows one. -/
def Obligations.EndStays : Prop :=
  ∀ (s : State) (w : Word) (n m : Nat), fetch s = some w → w.toNat / 4096 = 15 →
    stepLoop n s = .returned s ∧ halted s = true ∧
      (∀ t, stepCall s.pc n s = .returned t → t.pc = s.pc ∧ stepCall t.pc m t = .returned t)

/-- 40_step_loop.md R94 and R93 (natural budgets and the order of the tests: decisions D11, D9): a zero budget changes
nothing, and each executed instruction of a running engine uses one unit. R90 and 10_state.md R35: a call runs this loop
from the `pc` it is given, with the memory, registers and ports of the state; that State holds the `pc` is log entry 9, and
that the call's report list starts empty is log entry 5. The fault clause is R98: that the call ends in
the state before the faulting instruction is decisions D5 and D30, and that its result holds that state is log entry 12. -/
def Obligations.BudgetCountsInstructions : Prop :=
  (∀ s, stepLoop 0 s = .returned s) ∧
    (∀ (n : Nat) (s t : State), running s = true → step s = .next t → stepLoop (n + 1) s = stepLoop n t) ∧
    (∀ (n : Nat) (s : State) (r : Fault), running s = true → step s = .fault r → stepLoop (n + 1) s = .faulted r s) ∧
    (∀ (n : Nat) (s : State), halted s = true → stepLoop n s = .returned s) ∧
    (∀ (pc : Int) (n : Nat) (s : State),
      stepCall pc n s = stepLoop n { regs := s.regs, pc := pc, ports := s.ports, mem := s.mem, reports := [] })

/-- 40_step_loop.md R100: one call with budget `n + m` and a call with `n` followed, from the `pc` it returned, by a call
with `m` end in the same state with the same reports, or in the same fault. That each call has a report list of its own is
log entry 5; the fault clause is R98 with decisions D5 and D30 and log entry 12. -/
def Obligations.ResumptionAgrees : Prop :=
  ∀ (n m : Nat) (pc : Int) (s : State),
    stepCall pc (n + m) s =
      match stepCall pc n s with
      | .returned t =>
        (match stepCall t.pc m t with
        | .returned u => .returned { u with reports := t.reports ++ u.reports }
        | .faulted r u => .faulted r { u with reports := t.reports ++ u.reports }
        | .refused r u => .refused r { u with reports := t.reports ++ u.reports })
      | r => r

/-- 40_step_loop.md R93: the call's loop and the single steps of the machine's interface are one machine: running `n` steps
ends as the loop with budget `n` does. That a halted engine steps to itself is log entry 6. -/
def Obligations.LoopRefinesSteps : Prop :=
  ∀ (n : Nat) (s : State),
    Host.Core.run core n s =
      match stepLoop n s with
      | .returned t => .next t
      | .faulted r _ => .fault r
      | .refused r _ => .refused r

/-- 40_step_loop.md R98 (the faulted state is decisions D5 and D30): a call that faults performed some number of steps of its
budget, whose effects stay, and the faulted state is the one before the faulting instruction. No step is defined from a
faulted state, so that the host's `step` leaves it as it is, and only a load clears the fault (D30); that the host's other
moves keep their effects there is the model's choice (log entry 12). -/
def Obligations.FaultKeepsEarlierEffects : Prop :=
  (∀ (n : Nat) (s t : State) (r : Fault), stepLoop n s = .faulted r t →
    ∃ k, k < n ∧ stepLoop k s = .returned t ∧ running t = true ∧ step t = .fault r) ∧
    (∀ (acts : List HostAction) (s t : State) (r : Fault), hostRun acts s = .faulted r t →
      (∀ n, hostRun (acts ++ [.step n]) s = .faulted r t) ∧ (∀ pc n, hostRun (acts ++ [.stepFrom pc n]) s = .faulted r t) ∧
        hostRun (acts ++ [.inspect]) s = .faulted r t ∧ hostRun (acts ++ [.loadFailed]) s = .faulted r t ∧
        (∀ k v, hostRun (acts ++ [.writePort k v]) s = .faulted r (t.setPort k v))) ∧
    (∀ (acts : List HostAction) (img : List Word) (s : State),
      hostRun (acts ++ [.load img]) s = .returned (State.load img))

/-! ## The host -/

/-- 60_exceptions.md R210 (when and what the host may access: decision D25): the host's port write changes that port and
nothing else, and reading changes nothing; its run is one call with the budget, from the `pc` that the call before it
returned, or from one the caller passes (40_step_loop.md R90; State holds the returned `pc`, log entry 9); and moves follow
one another, each from the state that the one before it returned. -/
def Obligations.HostWritesOnePort : Prop :=
  (∀ (n : Nat) (s : State), hostAct (.step n) s = stepCall s.pc n s) ∧
  (∀ (pc : Int) (n : Nat) (s : State), hostAct (.stepFrom pc n) s = stepCall pc n s) ∧
  (∀ s : State, hostRun [] s = .returned s) ∧
  (∀ (acts : List HostAction) (act : HostAction) (s t : State), hostRun acts s = .returned t →
    hostRun (acts ++ [act]) s = hostAct act t) ∧
  ∀ (k : BitVec 3) (v : Word) (s : State),
    hostAct .inspect s = .returned s ∧
      ∃ t, hostAct (.writePort k v) s = .returned t ∧ t.port k = v ∧ SamePortsBut k s t ∧ SameRegs s t ∧ t.pc = s.pc ∧
        SameMemory s t ∧ t.reports = s.reports

/-! ## The assembler and the loader -/

/-- 45_assembler_pass1.md R143 (what white space is: log entry 7): tokens that hold no separator and are not empty come back
from a line that writes them with any separators between, before and after; every token of any line is such; and a line of
separators only, the empty line included, has no token. The separators are the comma and the white space. R142: before that
a line loses its comment, everything from the first `//` on, then the white space at both ends, and is skipped if nothing is
left. -/
def Obligations.TokenizeSplits : Prop :=
  (∀ c : Char, isSpace c = true ↔ c = ' ' ∨ (9 ≤ c.toNat ∧ c.toNat ≤ 13)) ∧
  (∀ pre mid post : Text, (∀ c ∈ pre, isSpace c = true) → (∀ c ∈ post, isSpace c = true) →
    (∀ c ∈ mid.head?, isSpace c = false) → (∀ c ∈ mid.getLast?, isSpace c = false) → trim (pre ++ mid ++ post) = mid) ∧
  (∀ l : Text, ¬ ['/', '/'] <:+: l → prepare l = if trim l = [] then none else some (trim l)) ∧
  (∀ l comment : Text, ¬ ['/', '/'] <:+: l ++ ['/'] → prepare (l ++ ['/', '/'] ++ comment) = prepare l) ∧
  (∀ c : Char, isSeparator c = true ↔ c = ',' ∨ c = ' ' ∨ (9 ≤ c.toNat ∧ c.toNat ≤ 13)) ∧
    (∀ l : Text, (∀ c ∈ l, isSeparator c = true) → tokenize l = []) ∧
    (∀ (l t : Text), t ∈ tokenize l → t ≠ [] ∧ ∀ c ∈ t, isSeparator c = false) ∧
    (∀ (pre seps : Text) (t l : Text), (∀ c ∈ pre, isSeparator c = true) → t ≠ [] → (∀ c ∈ t, isSeparator c = false) →
      (∀ c ∈ seps, isSeparator c = true) → (seps = [] → l = []) →
      tokenize (pre ++ t ++ seps ++ l) = t :: tokenize l)

/-- 45_assembler_pass1.md R150, R151, R152, R156 (the last declaration of a name wins): pass 1 takes the lines in order,
each after the last, skips a line with nothing on it, and stops at the first error; its counters count what they say,
every entry of the Text Segment begins with a mnemonic, and each label table holds a name once, at an address within its
segment or one past its end, and gives no address to exactly the names it does not hold, as the empty table gives none to
any name. The key words are spelled as R146 says
(decision D19). -/
def Obligations.Pass1Counts : Prop :=
  ([Mnemonic.add, .sub, .mov, .movr, .jmpz, .jmpn, .jmp, .endOp].map Mnemonic.text =
      ["ADD", "SUB", "MOV", "MOVR", "JMPZ", "JMPN", "JMP", "END"].map String.toList ∧
    kwWord = "WORD".toList ∧ kwData = ".data".toList ∧ kwText = ".text".toList) ∧
  (∀ name, LabelTable.find [] name = none) ∧
  pass1 [] = .ok { seg := .text, dc := 0, ic := 0, tl := [], dl := [], ds := [], ts := [] } ∧
  (∀ lines line,
    pass1 (lines ++ [line]) =
      match pass1 lines with
      | .error e => .error e
      | .ok st =>
        match prepare line with
        | none => .ok st
        | some l => parseLine st l) ∧
  ∀ lines st, pass1 lines = .ok st →
    st.ic = st.ts.length ∧ st.dc = st.ds.length ∧
      (∀ e ∈ st.ts, ∃ (m : Mnemonic) (vs : List Text), e.tokens = m.text :: vs) ∧
      (st.tl.map Prod.fst).Nodup ∧ (st.dl.map Prod.fst).Nodup ∧
      (∀ e ∈ st.tl, e.2 ≤ st.ic) ∧ (∀ e ∈ st.dl, e.2 ≤ st.dc) ∧
      (∀ name, st.tl.find name = none ↔ name ∉ st.tl.map Prod.fst) ∧
      (∀ name, st.dl.find name = none ↔ name ∉ st.dl.map Prod.fst)

/-- 45_assembler_pass1.md R151, R154 to R156 (markers and `WORD` values: decisions D29, D24; what the line of an error is:
log entry 8): the content `t :: vs` of a line: a marker switches the segment; in `.text` a mnemonic adds one entry and one to
the instruction counter, and another first token is the unknown-instruction error; in `.data` a `WORD` of numbers adds their
words, a `WORD` with another value is its format error, and another first token is the unknown-directive error.
R151 to R153 (decisions D20, D21): a line with a colon declares the trimmed text before the first one at the counter its
segment has before the line is counted, over an earlier declaration of that name in that segment, and declares nothing
else; the content is what follows the colon, and a line with a label only emits nothing; a line without a colon is all
content. -/
def Obligations.LineContents : Prop :=
  (∀ (st : Pass1) (name rest line : Text), ':' ∉ name → line = name ++ ':' :: rest →
    ∃ st' : Pass1,
      st'.seg = st.seg ∧ st'.dc = st.dc ∧ st'.ic = st.ic ∧ st'.ds = st.ds ∧ st'.ts = st.ts ∧
        (st.seg = .text →
          st'.dl = st.dl ∧ ∀ m, st'.tl.find m = if m = trim name then some st.ic else st.tl.find m) ∧
        (st.seg = .data →
          st'.tl = st.tl ∧ ∀ m, st'.dl.find m = if m = trim name then some st.dc else st.dl.find m) ∧
        (tokenize rest = [] → parseLine st line = .ok st') ∧
        (∀ t vs, tokenize rest = t :: vs → parseLine st line = parseContent st' t vs line)) ∧
  (∀ (st : Pass1) (line : Text), ':' ∉ line →
    (tokenize line = [] → parseLine st line = .ok st) ∧
      (∀ t vs, tokenize line = t :: vs → parseLine st line = parseContent st t vs line)) ∧
  ∀ (st : Pass1) (t : Text) (vs : List Text) (line : Text),
    (t = kwData → vs = [] → parseContent st t vs line = .ok { st with seg := .data }) ∧
      (t = kwText → vs = [] → parseContent st t vs line = .ok { st with seg := .text }) ∧
      (st.seg = .text → (∃ m, t = Mnemonic.text m) →
        parseContent st t vs line =
          .ok { st with ts := st.ts ++ [{ tokens := t :: vs, line := line }], ic := st.ic + 1 }) ∧
      (st.seg = .text → (∀ m, t ≠ Mnemonic.text m) → ¬ (t = kwData ∧ vs = []) → ¬ (t = kwText ∧ vs = []) →
        parseContent st t vs line = .error (.unknownInstruction t line)) ∧
      (st.seg = .data → t = kwWord → ∀ ns : List Int, vs.map classify = ns.map TokenClass.number →
        parseContent st t vs line =
          .ok { st with ds := st.ds ++ ns.map (trunc 16), dc := st.dc + ns.length }) ∧
      (st.seg = .data → t = kwWord → (∃ v ∈ vs, ∀ n, classify v ≠ .number n) →
        parseContent st t vs line = .error (.formatError kwWord line)) ∧
      (st.seg = .data → t ≠ kwWord → ¬ (t = kwData ∧ vs = []) → ¬ (t = kwText ∧ vs = []) →
        parseContent st t vs line = .error (.unknownDataDirective t line))

/-- 45_assembler_pass1.md R160: the label table of pass 2: a data label's value, raised by the instruction count in unified
mode, and a text label's value for a name that no data label has. That the data label wins where both segments declare the
name is R161, decision D22. -/
def Obligations.LabelsMerge : Prop :=
  ∀ lines st, pass1 lines = .ok st → ∀ (unified : Bool) (name : Text),
    (st.labels unified).find name =
      match st.dl.find name with
      | some d => some (if unified then d + st.ts.length else d)
      | none => st.tl.find name

/-- R190: the output is one word for each instruction, in order, followed in unified mode only by the whole Data Segment, so
its length is `N` or `N + M` and data word `d` is word `N + d`. Each code word is the encoding of its own entry. There is an
output whenever pass 1 succeeds and every entry resolves. -/
def Obligations.OutputStream : Prop :=
  (∀ lines unified st, pass1 lines = .ok st →
    (∀ (i : Nat) (e : TextEntry), st.ts[i]? = some e → ∃ op, resolve (st.labels unified) i e = .ok op) →
    ∃ words, assembleFile lines unified = .ok words) ∧
  ∀ lines unified words, assembleFile lines unified = .ok words →
    ∃ st, pass1 lines = .ok st ∧
      words.length = st.ts.length + (if unified then st.ds.length else 0) ∧
      (∀ (i : Nat) (e : TextEntry), st.ts[i]? = some e →
        ∃ op, resolve (st.labels unified) i e = .ok op ∧ words[i]? = some (encodeOp op)) ∧
      (unified = true → ∀ (d : Nat) (w : Word), st.ds[d]? = some w → words[st.ts.length + d]? = some w)

/-- R174, R175: ADD and SUB take exactly three registers, END nothing; every other line of theirs is a format error with
the mnemonic and the line; and the words they give. -/
def Obligations.ArithmeticAndEndShapes : Prop :=
  ∀ (lt : LabelTable) (i : Nat) (cs : List TokenClass) (line : Text),
    (∀ a b c : Nat, cs = [.register a, .register b, .register c] →
      resolveOperands .add lt i cs line = .ok (.add a b c) ∧ encodeOp (.add a b c) = packRRR 2 a b c ∧
        resolveOperands .sub lt i cs line = .ok (.sub a b c) ∧ encodeOp (.sub a b c) = packRRR 4 a b c) ∧
      ((∀ a b c : Nat, cs ≠ [.register a, .register b, .register c]) →
        resolveOperands .add lt i cs line = .error (.formatError ['A', 'D', 'D'] line) ∧
          resolveOperands .sub lt i cs line = .error (.formatError ['S', 'U', 'B'] line)) ∧
      (cs = [] → resolveOperands .endOp lt i cs line = .ok .endOp ∧ encodeOp .endOp = 0xF000) ∧
      (cs ≠ [] → resolveOperands .endOp lt i cs line = .error (.formatError ['E', 'N', 'D'] line))

/-- 46_assembler_pass2.md R176 to R185 (decisions D13 to D16): MOV resolves in exactly its seven forms and MOVR in exactly
its two, to these operations. The forms are over token classes: 45_assembler_pass1.md R144 and R145 (decisions D18, D19,
D23): the class of every token from its characters, the shapes of Safety.lean, where a token that is a register, device or
port token is no bare label and `@` takes any label shape. A token of none of these shapes has no class (U13). -/
def Obligations.MovForms : Prop :=
  (∀ t : Text,
    (∀ k, classify t = .register k ↔ ∃ ds, t = 'R' :: ds ∧ Decimal ds k) ∧
      (∀ k, classify t = .device k ↔ ∃ ds, t = 'D' :: ds ∧ Decimal ds k) ∧
      (∀ k, classify t = .port k ↔ ∃ ds, t = 'P' :: ds ∧ Decimal ds k) ∧
      (∀ n, classify t = .constant n ↔ ∃ ds, t = '#' :: ds ∧ SignedDecimal ds n) ∧
      (∀ name, classify t = .address name ↔ t = '@' :: name ∧ LabelShape name) ∧
      (∀ n, classify t = .number n ↔ SignedDecimal t n) ∧
      (∀ name, classify t = .label name ↔
        t = name ∧ LabelShape t ∧ ∀ p ds k, p ∈ ['R', 'D', 'P'] → Decimal ds k → t ≠ p :: ds)) ∧
  ∀ (lt : LabelTable) (i : Nat) (cs : List TokenClass) (line : Text) (op : Operation),
    (resolveOperands .mov lt i cs line = .ok op ↔
      (∃ (a : Nat) (n : Int), cs = [.register a, .constant n] ∧ op = .loadc a n) ∨
        (∃ (a : Nat) (l : Text) (v : Nat), cs = [.register a, .address l] ∧ lt.find l = some v ∧ op = .loadc a v) ∨
        (∃ (a : Nat) (l : Text) (v : Nat), cs = [.register a, .label l] ∧ lt.find l = some v ∧ op = .load a v) ∨
        (∃ (a : Nat) (n : Int), cs = [.register a, .number n] ∧ op = .load a n) ∨
        (∃ (a : Nat) (l : Text) (v : Nat), cs = [.label l, .register a] ∧ lt.find l = some v ∧ op = .store a v) ∨
        (∃ (a : Nat) (n : Int), cs = [.number n, .register a] ∧ op = .store a n) ∨
        (∃ n a k : Nat, cs = [.device n, .register a, .port k] ∧ op = .io a k n)) ∧
      (resolveOperands .movr lt i cs line = .ok op ↔
        (∃ (a b : Nat) (n : Int), cs = [.register a, .register b, .constant n] ∧ op = .movr a b n) ∨
          (∃ (a b : Nat) (l : Text) (v : Nat),
            cs = [.register a, .register b, .address l] ∧ lt.find l = some v ∧ op = .movr a b v))

/-- 46_assembler_pass2.md R186 to R189 (a literal is used unadjusted: decision D17): the jumps resolve in exactly their
shapes, a label to its address minus the jump's own index, a number to itself. -/
def Obligations.JumpForms : Prop :=
  ∀ (lt : LabelTable) (i : Nat) (cs : List TokenClass) (line : Text) (op : Operation),
    (resolveOperands .jmpz lt i cs line = .ok op ↔
      (∃ (a : Nat) (l : Text) (v : Nat), cs = [.register a, .label l] ∧ lt.find l = some v ∧ op = .jmpz a ((v : Int) - i)) ∨
        (∃ (a : Nat) (n : Int), cs = [.register a, .number n] ∧ op = .jmpz a n)) ∧
      (resolveOperands .jmpn lt i cs line = .ok op ↔
        (∃ (a : Nat) (l : Text) (v : Nat),
          cs = [.register a, .label l] ∧ lt.find l = some v ∧ op = .jmpn a ((v : Int) - i)) ∨
          (∃ (a : Nat) (n : Int), cs = [.register a, .number n] ∧ op = .jmpn a n)) ∧
      (resolveOperands .jmp lt i cs line = .ok op ↔
        (∃ (l : Text) (v : Nat), cs = [.label l] ∧ lt.find l = some v ∧ op = .jmp ((v : Int) - i)) ∨
          (∃ n : Int, cs = [.number n] ∧ op = .jmp n))

/-- 46_assembler_pass2.md R170: an entry of the Text Segment resolves by the mnemonic of its first token, on the classes of
the tokens after it. R171, R172 and 60_exceptions.md R202, R206 (shape before label lookup: decision D9): what pass 2
makes of the operands of a line. Operands that match no shape of the mnemonic (those that resolve with no label table
whatever; MovForms, JumpForms and ArithmeticAndEndShapes say which) are the format error naming the mnemonic and the line,
whatever labels they name; of operands that match a shape, those that name a label the table lacks are the unknown-label
error of the line, and the others resolve. An error of pass 1, or else of the first entry that does not resolve, is the
assembler's, and is the condition R202 gives it, with the data it records. -/
def Obligations.Pass2Errors : Prop :=
  (∀ lines unified,
    assemblyCondition lines unified =
      match assembleFile lines unified with
      | .ok _ => none
      | .error (.unknownInstruction token line) => some (.unknownInstruction token line)
      | .error (.unknownDataDirective token line) => some (.unknownDataDirective token line)
      | .error (.formatError mnemonic line) => some (.formatError mnemonic line)
      | .error (.unknownLabel line) => some (.unknownLabel line)) ∧
  (∀ (lt : LabelTable) (i : Nat) (e : TextEntry) (m : Mnemonic) (vs : List Text), e.tokens = Mnemonic.text m :: vs →
    resolve lt i e = resolveOperands m lt i (vs.map classify) e.line) ∧
  (∀ (m : Mnemonic) (lt : LabelTable) (i : Nat) (cs : List TokenClass) (line : Text),
    ((∀ lt' op, resolveOperands m lt' i cs line ≠ .ok op) →
      resolveOperands m lt i cs line = .error (.formatError (Mnemonic.text m) line)) ∧
    ((∃ lt' op, resolveOperands m lt' i cs line = .ok op) →
      ((∃ name, (.label name ∈ cs ∨ .address name ∈ cs) ∧ lt.find name = none) →
        resolveOperands m lt i cs line = .error (.unknownLabel line)) ∧
      ((∀ name, (.label name ∈ cs ∨ .address name ∈ cs) → lt.find name ≠ none) →
        ∃ op, resolveOperands m lt i cs line = .ok op))) ∧
  (∀ lines unified e, pass1 lines = .error e → assembleFile lines unified = .error e) ∧
  (∀ lines unified st (k : Nat) entry e, pass1 lines = .ok st → st.ts[k]? = some entry →
    (∀ (i : Nat) en, i < k → st.ts[i]? = some en → ∃ op, resolve (st.labels unified) i en = .ok op) →
    resolve (st.labels unified) k entry = .error e → assembleFile lines unified = .error e)

/-- 43_jumps.md R120 with 46_assembler_pass2.md R187 (decision D1): the assembler and the engine together: a jump to a label
whose displacement fits its field, performed from its own address, lands exactly on the label, for JMP always and for JMPZ
and JMPN when their condition holds. -/
def Obligations.JumpToLabelLands : Prop :=
  ∀ (lt : LabelTable) (i v : Nat) (name line : Text) (s : State), lt.find name = some v → s.pc = i →
    (fitsSigned ((v : Int) - i) 12 = true → ∀ op, resolveOperands .jmp lt i [.label name] line = .ok op →
      ∃ t, exec (decode (encodeOp op)) s = .next t ∧ t.pc = v) ∧
    (fitsSigned ((v : Int) - i) 8 = true → ∀ (a : Nat) (op : Operation), a < 16 →
      (resolveOperands .jmpz lt i [.register a, .label name] line = .ok op → s.reg (BitVec.ofNat 4 a) = 0 →
        ∃ t, exec (decode (encodeOp op)) s = .next t ∧ t.pc = v) ∧
      (resolveOperands .jmpn lt i [.register a, .label name] line = .ok op → (s.reg (BitVec.ofNat 4 a)).toInt < 0 →
        ∃ t, exec (decode (encodeOp op)) s = .next t ∧ t.pc = v))

/-- 20_memory.md R50, 70_reset_and_hazards.md R220 and 46_assembler_pass2.md R190: an assembled and loaded program: at `pc`
equal to an instruction's index the engine fetches the encoding of that instruction and no reserved word. -/
def Obligations.AssembledCodeIsFetched : Prop :=
  ∀ lines unified words st, assembleFile lines unified = .ok words → pass1 lines = .ok st →
    ∀ (i : Nat) (e : TextEntry), st.ts[i]? = some e →
      ∃ op, resolve (st.labels unified) i e = .ok op ∧
        fetch { State.load words with pc := i } = some (encodeOp op) ∧ (decode (encodeOp op)).assigned = true

/-- 20_memory.md R51, R52 (the bit order: decision D12; the refusal: decision D26, log entry 11): the text of words is read
back as those words, the leftmost character is bit 15, lines of another length take no address, and a text that holds a
line of 16 characters with another character than `0` and `1` is refused. -/
def Obligations.LoaderReadsBack : Prop :=
  (∀ ws : List Word, loadText (ws.map wordText) = some ws) ∧
    (∀ (w : Word) (k : Nat), k < 16 → (wordText w)[k]? = some (if w.getLsbD (15 - k) then '1' else '0')) ∧
    (∀ w : Word, (wordText w).length = 16) ∧
    (∀ ls : List Text, loadText ls = loadText (ls.filter (fun l => decide (l.length = 16)))) ∧
    (∀ (ls : List Text) (l : Text), l ∈ ls → l.length = 16 → (∃ c ∈ l, c ≠ '0' ∧ c ≠ '1') → loadText ls = none)
end

