-- ==== Sys2Proof/Laws/Conditions.lean ====
section
/-! SUPPORT. The halt at a state: one lemma for each of its three cases. -/

namespace Sys2Proof.Machine

/-- Off memory. -/
theorem haltCondition_of_fetch_none {s : State} (h : fetch s = none) : haltCondition s = some (.haltedOffMemory s.pc) := by
  simp [haltCondition, offMemory, h]

/-- At an END. -/
theorem haltCondition_of_end {s : State} {w : Word} (h : fetch s = some w) (hw : field w 0 4 = 15) :
    haltCondition s = some (.haltedAtEnd s.pc) := by
  simp [haltCondition, offMemory, atEnd, h, hw]

/-- At any other word. -/
theorem haltCondition_of_running {s : State} {w : Word} (h : fetch s = some w) (hw : field w 0 4 ≠ 15) :
    haltCondition s = none := by
  simp only [haltCondition, offMemory, atEnd, h]
  simpa using hw

end Sys2Proof.Machine
end

