-- ==== Sys2Proof/Laws/Word.lean ====
section
/-! SUPPORT. The word model's laws: the readings as Lean's own, and reduction modulo the width. -/

namespace Sys2Proof

/-- R9: the signed reading is two's complement as Lean's `toInt` has it. -/
theorem toSigned_eq_toInt {W : Nat} (v : BitVec W) : toSigned v = v.toInt := by
  unfold toSigned
  rw [BitVec.toInt_eq_msb_cond]
  split <;> simp

/-- R62: construction is reduction modulo `2^W`. -/
theorem trunc_toNat (W : Nat) (n : Int) : ((trunc W n).toNat : Int) = n % 2 ^ W := by
  have h : (0 : Int) < 2 ^ W := by positivity
  rw [trunc, BitVec.toNat_ofInt, Int.toNat_of_nonneg (Int.emod_nonneg _ (by positivity))]
  simp

/-- A negative integer put into a field has the bits its complement has not. -/
theorem trunc_negSucc (W n : Nat) : trunc W (.negSucc n) = ~~~(BitVec.ofNat W n) :=
  BitVec.ofInt_negSucc_eq_not_ofNat

/-- R70: OR before the cut to a field is OR of the fields, for integers of any sign. -/
theorem trunc_intOr (W : Nat) (x y : Int) : trunc W (intOr x y) = trunc W x ||| trunc W y := by
  cases x with
  | ofNat m =>
    cases y with
    | ofNat n =>
      apply BitVec.eq_of_getLsbD_eq
      intro i hi
      simp [trunc, intOr, hi]
    | negSucc n =>
      rw [intOr, trunc_negSucc, trunc_negSucc]
      apply BitVec.eq_of_getLsbD_eq
      intro i hi
      simp [trunc, hi]
      cases (BitVec.ofNat W m)[i] <;> cases (BitVec.ofNat W n)[i] <;> rfl
  | negSucc m =>
    cases y with
    | ofNat n =>
      rw [intOr, trunc_negSucc, trunc_negSucc]
      apply BitVec.eq_of_getLsbD_eq
      intro i hi
      simp [trunc, hi]
      cases (BitVec.ofNat W m)[i] <;> cases (BitVec.ofNat W n)[i] <;> rfl
    | negSucc n =>
      rw [intOr, trunc_negSucc, trunc_negSucc, trunc_negSucc]
      apply BitVec.eq_of_getLsbD_eq
      intro i hi
      simp [hi]

/-- R117: the signed readings of the operands are immaterial to the bits of a sum. -/
theorem trunc_add_signed (u v : Word) : trunc 16 (toSigned u + toSigned v) = u + v := by
  rw [toSigned_eq_toInt, toSigned_eq_toInt, trunc, BitVec.ofInt_add, BitVec.ofInt_toInt, BitVec.ofInt_toInt]

/-- R117: the signed readings of the operands are immaterial to the bits of a difference. -/
theorem trunc_sub_signed (u v : Word) : trunc 16 (toSigned u - toSigned v) = u - v := by
  rw [toSigned_eq_toInt, toSigned_eq_toInt, trunc, sub_eq_add_neg, BitVec.ofInt_add, BitVec.ofInt_neg, BitVec.ofInt_toInt,
    BitVec.ofInt_toInt, BitVec.sub_eq_add_neg]

/-- R67: an unsigned reading put back into its width is the field itself. -/
@[simp] theorem trunc_natCast_toNat {W : Nat} (v : BitVec W) : trunc W (v.toNat : Int) = v := by
  simp [trunc]

/-- R67: a signed reading put back into its width is the field itself. -/
@[simp] theorem trunc_toSigned {W : Nat} (v : BitVec W) : trunc W (toSigned v) = v := by
  rw [toSigned_eq_toInt, trunc, BitVec.ofInt_toInt]

end Sys2Proof
end

