-- ==== Sys2Proof/Laws/Encoding.lean ====
section
/-! SUPPORT. The fields of each packed format, and the decoder on each packed word. -/

namespace Sys2Proof

/-- The fields of format RL. -/
theorem field_packRL (op a n : Int) :
    field (packRL op a n) 0 4 = trunc 4 op ∧ field (packRL op a n) 4 4 = trunc 4 a ∧
      field (packRL op a n) 8 8 = trunc 8 n := by
  unfold packRL field
  generalize trunc 4 op = x
  generalize trunc 4 a = y
  generalize trunc 8 n = z
  refine ⟨?_, ?_, ?_⟩ <;> (apply BitVec.eq_of_getLsbD_eq; intro i hi; simp; interval_cases i <;> simp)

/-- The fields of format RRR. -/
theorem field_packRRR (op a b c : Int) :
    field (packRRR op a b c) 0 4 = trunc 4 op ∧ field (packRRR op a b c) 4 4 = trunc 4 a ∧
      field (packRRR op a b c) 8 4 = trunc 4 b ∧ field (packRRR op a b c) 12 4 = trunc 4 c := by
  unfold packRRR field
  generalize trunc 4 op = x
  generalize trunc 4 a = y
  generalize trunc 4 b = z
  generalize trunc 4 c = u
  refine ⟨?_, ?_, ?_, ?_⟩ <;> (apply BitVec.eq_of_getLsbD_eq; intro i hi; simp; interval_cases i <;> simp)

/-- The fields of format J. -/
theorem field_packJ (op n : Int) : field (packJ op n) 0 4 = trunc 4 op ∧ field (packJ op n) 4 12 = trunc 12 n := by
  unfold packJ field
  generalize trunc 4 op = x
  generalize trunc 12 n = y
  refine ⟨?_, ?_⟩ <;> (apply BitVec.eq_of_getLsbD_eq; intro i hi; simp; interval_cases i <;> simp)

/-- The fields of format IO, with the port and direction as the two parts of the combined field (R65). -/
theorem field_packIO (a f : Int) :
    field (packIO a f) 0 4 = 14 ∧ field (packIO a f) 4 4 = trunc 4 a ∧
      field (packIO a f) 8 3 = (trunc 4 f).extractLsb' 1 3 ∧ field (packIO a f) 11 1 = (trunc 4 f).extractLsb' 0 1 ∧
      field (packIO a f) 12 4 = 0 := by
  have h14 : trunc 4 14 = 14#4 := rfl
  unfold packIO field
  rw [h14]
  generalize trunc 4 a = y
  generalize trunc 4 f = z
  refine ⟨?_, ?_, ?_, ?_, ?_⟩ <;> (apply BitVec.eq_of_getLsbD_eq; intro i hi; simp; interval_cases i <;> simp)

/-- The fields of a reserved word. -/
theorem field_reservedWord (op : BitVec 4) (rest : BitVec 12) :
    field (reservedWord op rest) 0 4 = op ∧ field (reservedWord op rest) 4 12 = rest := by
  constructor
  · exact BitVec.extractLsb'_append_eq_left
  · exact BitVec.extractLsb'_append_eq_right

/-! ## The decoder by opcode: one lemma for each arm (R72) -/

theorem decode_op0 {w : Word} (h : field w 0 4 = 0) : decode w = .load (field w 4 4) (field w 8 8) := by
  simp [decode, h]
theorem decode_op1 {w : Word} (h : field w 0 4 = 1) : decode w = .store (field w 4 4) (field w 8 8) := by
  simp [decode, h]
theorem decode_op2 {w : Word} (h : field w 0 4 = 2) : decode w = .add (field w 4 4) (field w 8 4) (field w 12 4) := by
  simp [decode, h]
theorem decode_op3 {w : Word} (h : field w 0 4 = 3) : decode w = .loadc (field w 4 4) (field w 8 8) := by
  simp [decode, h]
theorem decode_op4 {w : Word} (h : field w 0 4 = 4) : decode w = .sub (field w 4 4) (field w 8 4) (field w 12 4) := by
  simp [decode, h]
theorem decode_op5 {w : Word} (h : field w 0 4 = 5) : decode w = .jmpz (field w 4 4) (field w 8 8) := by
  simp [decode, h]
theorem decode_op6 {w : Word} (h : field w 0 4 = 6) : decode w = .jmpn (field w 4 4) (field w 8 8) := by
  simp [decode, h]
theorem decode_op7 {w : Word} (h : field w 0 4 = 7) : decode w = .jmp (field w 4 12) := by
  simp [decode, h]
theorem decode_op8 {w : Word} (h : field w 0 4 = 8) : decode w = .movr (field w 4 4) (field w 8 4) (field w 12 4) := by
  simp [decode, h]
theorem decode_op9 {w : Word} (h : field w 0 4 = 9) : decode w = .reserved9 (field w 4 12) := by
  simp [decode, h]
theorem decode_op10 {w : Word} (h : field w 0 4 = 10) : decode w = .reserved10 (field w 4 12) := by
  simp [decode, h]
theorem decode_op11 {w : Word} (h : field w 0 4 = 11) : decode w = .reserved11 (field w 4 12) := by
  simp [decode, h]
theorem decode_op12 {w : Word} (h : field w 0 4 = 12) : decode w = .reserved12 (field w 4 12) := by
  simp [decode, h]
theorem decode_op13 {w : Word} (h : field w 0 4 = 13) : decode w = .reserved13 (field w 4 12) := by
  simp [decode, h]
theorem decode_op14 {w : Word} (h : field w 0 4 = 14) :
    decode w = .io (field w 4 4) (field w 8 3) (field w 11 1) := by
  simp [decode, h]
theorem decode_op15 {w : Word} (h : field w 0 4 = 15) : decode w = .endOp := by
  simp [decode, h]

/-! ## The decoder on packed words -/

/-- R65: the two parts of the combined field of a port and a direction that fit. -/
theorem ioField_parts (p : BitVec 3) (d : BitVec 1) :
    (trunc 4 (ioField p.toNat d.toNat)).extractLsb' 1 3 = p ∧
      (trunc 4 (ioField p.toNat d.toNat)).extractLsb' 0 1 = d := by
  revert p d
  decide

end Sys2Proof
end

