-- ==== Sys2Proof/Laws/State.lean ====
section
/-! SUPPORT. What each update of the state does to each field and to each read: one lemma per field per update. -/

namespace Sys2Proof.Machine

/-! ## setReg -/

@[simp] theorem State.setReg_pc (s : State) (a : RegIdx) (v : Word) : (s.setReg a v).pc = s.pc := rfl
@[simp] theorem State.setReg_ports (s : State) (a : RegIdx) (v : Word) : (s.setReg a v).ports = s.ports := rfl
@[simp] theorem State.setReg_mem (s : State) (a : RegIdx) (v : Word) : (s.setReg a v).mem = s.mem := rfl
@[simp] theorem State.setReg_reports (s : State) (a : RegIdx) (v : Word) : (s.setReg a v).reports = s.reports := rfl
@[simp] theorem State.setReg_port (s : State) (a : RegIdx) (v : Word) (k : PortIdx) : (s.setReg a v).port k = s.port k :=
  rfl

/-- A register read after a write of it gives the word written. -/
@[simp] theorem State.setReg_reg_same (s : State) (a : RegIdx) (v : Word) : (s.setReg a v).reg a = v := by
  simp [State.reg, State.setReg]

/-- A write of a register leaves every other register alone. -/
theorem State.setReg_reg_ne (s : State) (a r : RegIdx) (v : Word) (h : r ≠ a) : (s.setReg a v).reg r = s.reg r := by
  have hne : a.toNat ≠ r.toNat := fun e => h (BitVec.eq_of_toNat_eq e.symm)
  simp [State.reg, State.setReg, Vector.getElem_set_ne _ _ hne]

/-! ## setPort -/

@[simp] theorem State.setPort_pc (s : State) (k : PortIdx) (v : Word) : (s.setPort k v).pc = s.pc := rfl
@[simp] theorem State.setPort_regs (s : State) (k : PortIdx) (v : Word) : (s.setPort k v).regs = s.regs := rfl
@[simp] theorem State.setPort_mem (s : State) (k : PortIdx) (v : Word) : (s.setPort k v).mem = s.mem := rfl
@[simp] theorem State.setPort_reports (s : State) (k : PortIdx) (v : Word) : (s.setPort k v).reports = s.reports := rfl
@[simp] theorem State.setPort_reg (s : State) (k : PortIdx) (v : Word) (r : RegIdx) : (s.setPort k v).reg r = s.reg r :=
  rfl

/-- A port read after a write of it gives the word written (R31). -/
@[simp] theorem State.setPort_port_same (s : State) (k : PortIdx) (v : Word) : (s.setPort k v).port k = v := by
  simp [State.port, State.setPort]

/-- A write of a port leaves every other port alone. -/
theorem State.setPort_port_ne (s : State) (k j : PortIdx) (v : Word) (h : j ≠ k) :
    (s.setPort k v).port j = s.port j := by
  have hne : k.toNat ≠ j.toNat := fun e => h (BitVec.eq_of_toNat_eq e.symm)
  simp [State.port, State.setPort, Vector.getElem_set_ne _ _ hne]

/-! ## setPc, advance, jumpBy -/

@[simp] theorem State.setPc_pc (s : State) (p : Int) : (s.setPc p).pc = p := rfl
@[simp] theorem State.setPc_regs (s : State) (p : Int) : (s.setPc p).regs = s.regs := rfl
@[simp] theorem State.setPc_ports (s : State) (p : Int) : (s.setPc p).ports = s.ports := rfl
@[simp] theorem State.setPc_mem (s : State) (p : Int) : (s.setPc p).mem = s.mem := rfl
@[simp] theorem State.setPc_reports (s : State) (p : Int) : (s.setPc p).reports = s.reports := rfl
@[simp] theorem State.setPc_reg (s : State) (p : Int) (r : RegIdx) : (s.setPc p).reg r = s.reg r := rfl
@[simp] theorem State.setPc_port (s : State) (p : Int) (k : PortIdx) : (s.setPc p).port k = s.port k := rfl

@[simp] theorem State.advance_pc (s : State) : s.advance.pc = s.pc + 1 := rfl
@[simp] theorem State.advance_regs (s : State) : s.advance.regs = s.regs := rfl
@[simp] theorem State.advance_ports (s : State) : s.advance.ports = s.ports := rfl
@[simp] theorem State.advance_mem (s : State) : s.advance.mem = s.mem := rfl
@[simp] theorem State.advance_reports (s : State) : s.advance.reports = s.reports := rfl
@[simp] theorem State.advance_reg (s : State) (r : RegIdx) : s.advance.reg r = s.reg r := rfl
@[simp] theorem State.advance_port (s : State) (k : PortIdx) : s.advance.port k = s.port k := rfl

@[simp] theorem State.jumpBy_pc (s : State) (d : Int) : (s.jumpBy d).pc = s.pc + d := rfl
@[simp] theorem State.jumpBy_regs (s : State) (d : Int) : (s.jumpBy d).regs = s.regs := rfl
@[simp] theorem State.jumpBy_ports (s : State) (d : Int) : (s.jumpBy d).ports = s.ports := rfl
@[simp] theorem State.jumpBy_mem (s : State) (d : Int) : (s.jumpBy d).mem = s.mem := rfl
@[simp] theorem State.jumpBy_reports (s : State) (d : Int) : (s.jumpBy d).reports = s.reports := rfl
@[simp] theorem State.jumpBy_reg (s : State) (d : Int) (r : RegIdx) : (s.jumpBy d).reg r = s.reg r := rfl
@[simp] theorem State.jumpBy_port (s : State) (d : Int) (k : PortIdx) : (s.jumpBy d).port k = s.port k := rfl

/-! ## report -/

@[simp] theorem State.report_pc (s : State) (w : Word) : (s.report w).pc = s.pc := rfl
@[simp] theorem State.report_regs (s : State) (w : Word) : (s.report w).regs = s.regs := rfl
@[simp] theorem State.report_ports (s : State) (w : Word) : (s.report w).ports = s.ports := rfl
@[simp] theorem State.report_mem (s : State) (w : Word) : (s.report w).mem = s.mem := rfl
@[simp] theorem State.report_reports (s : State) (w : Word) :
    (s.report w).reports = s.reports ++ [{ addr := s.pc, word := w }] := rfl
@[simp] theorem State.report_reg (s : State) (w : Word) (r : RegIdx) : (s.report w).reg r = s.reg r := rfl
@[simp] theorem State.report_port (s : State) (w : Word) (k : PortIdx) : (s.report w).port k = s.port k := rfl

/-! ## reads under a record update of another field -/

@[simp] theorem State.reg_withMem (s : State) (m : Memory) (r : RegIdx) : ({ s with mem := m } : State).reg r = s.reg r :=
  rfl
@[simp] theorem State.port_withMem (s : State) (m : Memory) (k : PortIdx) :
    ({ s with mem := m } : State).port k = s.port k := rfl
@[simp] theorem State.reg_withReports (s : State) (rs : List Report) (r : RegIdx) :
    ({ s with reports := rs } : State).reg r = s.reg r := rfl
@[simp] theorem State.port_withReports (s : State) (rs : List Report) (k : PortIdx) :
    ({ s with reports := rs } : State).port k = s.port k := rfl
@[simp] theorem State.reg_withPorts (s : State) (ps : Vector Word 8) (r : RegIdx) :
    ({ s with ports := ps } : State).reg r = s.reg r := rfl

/-! ## load -/

@[simp] theorem State.load_pc (img : List Word) : (State.load img).pc = 0 := rfl
@[simp] theorem State.load_mem (img : List Word) : (State.load img).mem = Memory.ofImage img := rfl
@[simp] theorem State.load_reports (img : List Word) : (State.load img).reports = [] := rfl

end Sys2Proof.Machine
end

