-- ==== Sys2Proof/Laws/Memory.lean ====
section
/-! SUPPORT. The laws of memory: read after write, other addresses untouched, the canonical form kept, the image loaded. -/

namespace Sys2Proof.Machine

/-! ## Cell lists -/

/-- A cell list's canonical form one cell at a time. -/
theorem cellsWf_cons (c : Cell) (cs : List Cell) (lo len : Nat) :
    cellsWf (c :: cs) lo len = true ↔
      lo ≤ c.1 ∧ c.1 < len ∧ c.2 ≠ Config.unlistedWord ∧ cellsWf cs (c.1 + 1) len = true := by
  simp [cellsWf, and_assoc]

/-- A canonical list stays canonical under a lower bound and a longer memory. -/
theorem cellsWf_weaken {cs : List Cell} {lo lo' len len' : Nat} (h : cellsWf cs lo len = true) (hlo : lo' ≤ lo)
    (hlen : len ≤ len') : cellsWf cs lo' len' = true := by
  induction cs generalizing lo lo' with
  | nil => rfl
  | cons c cs ih =>
    obtain ⟨h1, h2, h3, h4⟩ := (cellsWf_cons ..).1 h
    exact (cellsWf_cons ..).2 ⟨by omega, by omega, h3, ih h4 le_rfl⟩

/-- An address below a canonical list reads as an unlisted one. -/
theorem cellsGet_below {cs : List Cell} {lo len a : Nat} (h : cellsWf cs lo len = true) (ha : a < lo) :
    cellsGet cs a = Config.unlistedWord := by
  induction cs generalizing lo with
  | nil => rfl
  | cons c cs ih =>
    obtain ⟨h1, -, -, h4⟩ := (cellsWf_cons ..).1 h
    rw [cellsGet, if_neg (by omega), ih h4 (by omega)]

/-- A write leaves every other address alone, whatever the list. -/
theorem cellsGet_set_ne (cs : List Cell) {a b : Nat} (v : Word) (h : b ≠ a) :
    cellsGet (cellsSet cs a v) b = cellsGet cs b := by
  induction cs with
  | nil => by_cases hv : v = Config.unlistedWord <;> simp [cellsSet, cellsGet, hv, h]
  | cons c cs ih =>
    rw [cellsSet]
    split
    · split
      · rfl
      · rw [cellsGet, if_neg h]
    · split
      · next ha =>
        subst ha
        split <;> simp [cellsGet, h]
      · simp [cellsGet, ih]

/-- A read after a write of the same address gives the word written, in a canonical list. -/
theorem cellsGet_set_same {cs : List Cell} {lo len : Nat} (a : Nat) (v : Word) (h : cellsWf cs lo len = true) :
    cellsGet (cellsSet cs a v) a = v := by
  induction cs generalizing lo with
  | nil => by_cases hv : v = Config.unlistedWord <;> simp [cellsSet, cellsGet, hv]
  | cons c cs ih =>
    obtain ⟨h1, h2, h3, h4⟩ := (cellsWf_cons ..).1 h
    rw [cellsSet]
    split
    · next hlt =>
      split
      · next hv => rw [cellsGet, if_neg (by omega), cellsGet_below h4 (by omega), hv]
      · simp [cellsGet]
    · split
      · next heq =>
        split
        · next hv => rw [cellsGet_below h4 (by omega), hv]
        · simp [cellsGet]
      · next hne => rw [cellsGet, if_neg hne, ih h4]

/-- A write inside memory keeps the canonical form. -/
theorem cellsSet_wf {cs : List Cell} {lo len a : Nat} (v : Word) (h : cellsWf cs lo len = true) (hlo : lo ≤ a)
    (hlen : a < len) : cellsWf (cellsSet cs a v) lo len = true := by
  induction cs generalizing lo with
  | nil =>
    by_cases hv : v = Config.unlistedWord
    · simp [cellsSet, hv, cellsWf]
    · rw [cellsSet, if_neg hv]
      exact (cellsWf_cons ..).2 ⟨hlo, hlen, hv, rfl⟩
  | cons c cs ih =>
    obtain ⟨h1, h2, h3, h4⟩ := (cellsWf_cons ..).1 h
    rw [cellsSet]
    split
    · split
      · exact h
      · next hlt hv =>
        exact (cellsWf_cons ..).2 ⟨hlo, hlen, hv, (cellsWf_cons ..).2 ⟨by simpa using hlt, h2, h3, h4⟩⟩
    · split
      · next heq =>
        split
        · exact cellsWf_weaken h4 (by omega) le_rfl
        · next hv => exact (cellsWf_cons ..).2 ⟨hlo, hlen, hv, by simpa [heq] using h4⟩
      · exact (cellsWf_cons ..).2 ⟨h1, h2, h3, ih h4 (by omega)⟩

/-- The cells of an image are canonical. -/
theorem cellsOfImage_wf (img : List Word) (a len : Nat) (h : a + img.length ≤ len) :
    cellsWf (cellsOfImage img a) a len = true := by
  induction img generalizing a with
  | nil => rfl
  | cons w ws ih =>
    have hl : a + 1 + ws.length ≤ len := by simp only [List.length_cons] at h; omega
    have hws := ih (a + 1) hl
    rw [cellsOfImage]
    split
    · exact cellsWf_weaken hws (by omega) le_rfl
    · next hw => exact (cellsWf_cons ..).2 ⟨le_rfl, by dsimp; omega, hw, hws⟩

/-- The cells of an image give the image's words. -/
theorem cellsGet_ofImage (img : List Word) (a k : Nat) (h : k < img.length) :
    cellsGet (cellsOfImage img a) (a + k) = img[k] := by
  induction img generalizing a k with
  | nil => simp at h
  | cons w ws ih =>
    have hwf := cellsOfImage_wf ws (a + 1) (a + 1 + ws.length) le_rfl
    rw [cellsOfImage]
    cases k with
    | zero =>
      split
      · next hw => rw [Nat.add_zero, cellsGet_below hwf (by omega)]; simp [hw]
      · simp [cellsGet]
    | succ k =>
      have hk : k < ws.length := by simpa using h
      have e : a + (k + 1) = a + 1 + k := by omega
      split
      · rw [e, ih (a + 1) k hk]; rfl
      · rw [e, cellsGet, if_neg (by dsimp; omega), ih (a + 1) k hk]; rfl

/-! ## Memory -/

/-- R43: a read inside memory. -/
theorem Memory.read_inBounds {m : Memory} {a : Int} (h : m.inBounds a) : m.read a = some (cellsGet m.cells a.toNat) :=
  if_pos h

/-- R43: a read outside memory gives no word. -/
theorem Memory.read_outside {m : Memory} {a : Int} (h : ¬ m.inBounds a) : m.read a = none := if_neg h

/-- R43: a read gives a word exactly inside memory. -/
theorem Memory.read_isSome (m : Memory) (a : Int) : (m.read a).isSome = true ↔ m.inBounds a := by
  unfold Memory.read
  split
  · next h => exact ⟨fun _ => h, fun _ => rfl⟩
  · next h => exact ⟨fun hs => by simp at hs, fun hb => absurd hb h⟩

/-- R44: everything a write can do: it is inside memory, keeps the length and sets one cell. -/
theorem Memory.write_eq_some {m m' : Memory} {a : Int} {v : Word} (h : m.write a v = some m') :
    m.inBounds a ∧ m' = { m with cells := cellsSet m.cells a.toNat v } := by
  unfold Memory.write at h
  split at h
  · next hb => exact ⟨hb, (Option.some.inj h).symm⟩
  · simp at h

/-- R44: a write inside memory happens. -/
theorem Memory.write_inBounds {m : Memory} {a : Int} (v : Word) (h : m.inBounds a) :
    m.write a v = some { m with cells := cellsSet m.cells a.toNat v } := if_pos h

/-- R44: a write outside memory does not happen. -/
theorem Memory.write_outside {m : Memory} {a : Int} (v : Word) (h : ¬ m.inBounds a) : m.write a v = none := if_neg h

/-- R44: a write never changes the length. -/
theorem Memory.write_len {m m' : Memory} {a : Int} {v : Word} (h : m.write a v = some m') : m'.len = m.len := by
  rw [(Memory.write_eq_some h).2]

/-- A write leaves every other address alone. -/
theorem Memory.read_write_ne {m m' : Memory} {a b : Int} {v : Word} (h : m.write a v = some m') (hb : b ≠ a) :
    m'.read b = m.read b := by
  obtain ⟨ha, rfl⟩ := Memory.write_eq_some h
  unfold Memory.read
  by_cases hin : m.inBounds b
  · have hne : b.toNat ≠ a.toNat := by have := ha.1; have := hin.1; omega
    rw [if_pos hin, if_pos (show Memory.inBounds { m with cells := _ } b from hin), cellsGet_set_ne _ _ hne]
  · rw [if_neg hin, if_neg (show ¬ Memory.inBounds { m with cells := _ } b from hin)]

/-- A read after a write of the same address gives the word written. -/
theorem Memory.read_write_same {m m' : Memory} {a : Int} {v : Word} (hwf : m.wf = true) (h : m.write a v = some m') :
    m'.read a = some v := by
  obtain ⟨ha, rfl⟩ := Memory.write_eq_some h
  exact (if_pos ha).trans (congrArg some (cellsGet_set_same _ _ hwf))

/-- A write keeps the canonical form. -/
theorem Memory.write_wf {m m' : Memory} {a : Int} {v : Word} (hwf : m.wf = true) (h : m.write a v = some m') :
    m'.wf = true := by
  obtain ⟨ha, rfl⟩ := Memory.write_eq_some h
  have hlt : a.toNat < m.len := by have h0 := ha.1; have h1 := ha.2; omega
  exact cellsSet_wf v hwf (Nat.zero_le _) hlt

/-- A loaded memory is canonical. -/
theorem Memory.ofImage_wf (img : List Word) : (Memory.ofImage img).wf = true :=
  cellsOfImage_wf img 0 img.length (by omega)

/-- R220: a loaded memory reads as its image. -/
theorem Memory.read_ofImage (img : List Word) (k : Nat) : (Memory.ofImage img).read k = img[k]? := by
  by_cases h : k < img.length
  · have hb : (Memory.ofImage img).inBounds (k : Int) := ⟨by omega, by simpa [Memory.ofImage] using h⟩
    rw [Memory.read_inBounds hb, List.getElem?_eq_getElem h]
    simpa [Memory.ofImage] using cellsGet_ofImage img 0 k h
  · rw [Memory.read_outside (fun hb => h (by simpa [Memory.ofImage] using hb.2)), List.getElem?_eq_none (by omega)]

/-- Placing a word keeps the canonical form. -/
theorem Memory.place_wf {m : Memory} (a : Nat) (w : Word) (h : m.wf = true) : (m.place a w).wf = true :=
  cellsSet_wf w (cellsWf_weaken h le_rfl (le_max_left ..)) (Nat.zero_le _) (lt_of_lt_of_le (Nat.lt_succ_self a) (le_max_right ..))

/-- A placed word is read where it was placed. -/
theorem Memory.read_place {m : Memory} (a : Nat) (w : Word) (h : m.wf = true) : (m.place a w).read a = some w := by
  have hb : (m.place a w).inBounds (a : Int) := ⟨by omega, by simp only [Memory.place]; omega⟩
  rw [Memory.read_inBounds hb]
  exact congrArg some (cellsGet_set_same a w h)

end Sys2Proof.Machine
end

