-- ==== Sys2Proof/Laws/Exec.lean ====
section
/-! SUPPORT. Each shared operation of the meanings, said once: what it answers and when; and the step over them. -/

namespace Sys2Proof.Machine

/-- A load inside memory answers the word read. -/
theorem loadFrom_of_read {a : RegIdx} {addr : Int} {s : State} {v : Word} (h : s.mem.read addr = some v) :
    loadFrom a addr s = .next (s.setReg a v).advance := by
  rw [loadFrom, h]

/-- A load outside memory faults. -/
theorem loadFrom_outside {a : RegIdx} {addr : Int} {s : State} (h : ¬ s.mem.inBounds addr) :
    loadFrom a addr s = .fault (.memBounds addr) := by
  rw [loadFrom, Memory.read_outside h]

/-- Everything a load can do: a register written from inside memory, or the fault outside it. -/
theorem loadFrom_cases (a : RegIdx) (addr : Int) (s : State) :
    (∃ v, s.mem.read addr = some v ∧ loadFrom a addr s = .next (s.setReg a v).advance) ∨
      (¬ s.mem.inBounds addr ∧ loadFrom a addr s = .fault (.memBounds addr)) := by
  by_cases h : s.mem.inBounds addr
  · exact .inl ⟨_, Memory.read_inBounds h, loadFrom_of_read (Memory.read_inBounds h)⟩
  · exact .inr ⟨h, loadFrom_outside h⟩

/-- A store inside memory writes the one word. -/
theorem storeTo_of_write {a : RegIdx} {addr : Int} {s : State} {m : Memory} (h : s.mem.write addr (s.reg a) = some m) :
    storeTo a addr s = .next ({ s with mem := m } : State).advance := by
  rw [storeTo, h]

/-- A store outside memory faults. -/
theorem storeTo_outside {a : RegIdx} {addr : Int} {s : State} (h : ¬ s.mem.inBounds addr) :
    storeTo a addr s = .fault (.memBounds addr) := by
  rw [storeTo, Memory.write_outside _ h]

/-- Everything a store can do: the write inside memory, or the fault outside it. -/
theorem storeTo_cases (a : RegIdx) (addr : Int) (s : State) :
    (∃ m, s.mem.write addr (s.reg a) = some m ∧ storeTo a addr s = .next ({ s with mem := m } : State).advance) ∨
      (¬ s.mem.inBounds addr ∧ storeTo a addr s = .fault (.memBounds addr)) := by
  by_cases h : s.mem.inBounds addr
  · exact .inl ⟨_, Memory.write_inBounds _ h, storeTo_of_write (Memory.write_inBounds _ h)⟩
  · exact .inr ⟨h, storeTo_outside h⟩

/-- R45, R97: off memory nothing is fetched and the state stays. -/
theorem step_of_fetch_none {s : State} (h : fetch s = none) : step s = .next s := by
  rw [step, h]

/-- R91: a fetched word is decoded and performed. -/
theorem step_of_fetch_some {s : State} {w : Word} (h : fetch s = some w) : step s = exec (decode w) s := by
  rw [step, h]

/-- Everything a step can do: stay off memory, or perform the instruction fetched. -/
theorem step_cases (s : State) :
    (fetch s = none ∧ step s = .next s) ∨ (∃ w, fetch s = some w ∧ step s = exec (decode w) s) := by
  cases h : fetch s with
  | none => exact .inl ⟨rfl, step_of_fetch_none h⟩
  | some w => exact .inr ⟨w, rfl, step_of_fetch_some h⟩

/-- The state `withFetchWord` makes fetches the word it was given, from a canonical memory. -/
theorem fetch_placeAtPc {s : State} (w : Word) (h : s.mem.wf = true) : fetch (s.placeAtPc w) = some w := by
  have hpc : (s.placeAtPc w).pc = (s.pc.toNat : Int) := by simp only [State.placeAtPc]; omega
  rw [fetch, hpc]
  exact Memory.read_place _ _ h

end Sys2Proof.Machine
end

