-- ==== Sys2Proof/Laws/Host.lean ====
section
/-! SUPPORT. Host moves: one lemma for each thing a move can do to a call that stopped, and sequences of moves. -/

namespace Sys2Proof.Machine

/-- After a call that returned, a move has the effect that `hostAct` gives it. -/
@[simp] theorem hostNext_returned (act : HostAction) (s : State) : hostNext act (.returned s) = hostAct act s := rfl

/-- A load gives the loaded state, whatever came before; only so is a fault cleared (D30). -/
@[simp] theorem hostNext_load (img : List Word) (c : CallResult) :
    hostNext (.load img) c = .returned (State.load img) := by cases c <;> rfl

/-- Everything a move can do in a faulted state: load an image, write one port, or leave all as it is. -/
theorem hostNext_faulted_cases (act : HostAction) (r : Fault) (s : State) :
    (∃ img, act = .load img ∧ hostNext act (.faulted r s) = .returned (State.load img)) ∨
      (∃ k v, act = .writePort k v ∧ hostNext act (.faulted r s) = .faulted r (s.setPort k v)) ∨
      hostNext act (.faulted r s) = .faulted r s := by
  cases act with
  | load img => exact .inl ⟨img, rfl, rfl⟩
  | writePort k v => exact .inr (.inl ⟨k, v, rfl, rfl⟩)
  | loadFailed => exact .inr (.inr rfl)
  | step _ => exact .inr (.inr rfl)
  | stepFrom _ _ => exact .inr (.inr rfl)
  | inspect => exact .inr (.inr rfl)

/-- No move changes nothing. -/
@[simp] theorem hostRun_nil (s : State) : hostRun [] s = .returned s := rfl

/-- The last move is applied to what the moves before it came to. -/
theorem hostRun_concat (acts : List HostAction) (act : HostAction) (s : State) :
    hostRun (acts ++ [act]) s = hostNext act (hostRun acts s) := by
  simp only [hostRun, List.foldl_append, List.foldl_cons, List.foldl_nil]

end Sys2Proof.Machine
end

