-- ==== Sys2Proof/Laws/PerInstr.lean ====
section
/-! SUPPORT. The family RoundTrip: decoding the encoding of an instruction gives the instruction (R73), one lemma for each
constructor. -/

namespace Sys2Proof.Laws.RoundTrip

-- One theorem after another: side by side they wait for the same unfolding lemmas in a thread each.
set_option Elab.async false

/-- R73 (a), reserved words included. -/
def Statement (i : Instr) : Prop := decode (encode i) = i

theorem load (a : BitVec 4) (l : BitVec 8) : Statement (.load a l) := by
  obtain ⟨h, ha, hl⟩ := field_packRL 0 a.toNat l.toNat
  simp [Statement, encode, encodeOp, decode_op0 h, ha, hl]

theorem store (a : BitVec 4) (l : BitVec 8) : Statement (.store a l) := by
  obtain ⟨h, ha, hl⟩ := field_packRL 1 a.toNat l.toNat
  simp [Statement, encode, encodeOp, decode_op1 h, ha, hl]

theorem add (a b c : BitVec 4) : Statement (.add a b c) := by
  obtain ⟨h, ha, hb, hc⟩ := field_packRRR 2 a.toNat b.toNat c.toNat
  simp [Statement, encode, encodeOp, decode_op2 h, ha, hb, hc]

theorem loadc (a : BitVec 4) (k : BitVec 8) : Statement (.loadc a k) := by
  obtain ⟨h, ha, hk⟩ := field_packRL 3 a.toNat k.toNat
  simp [Statement, encode, encodeOp, decode_op3 h, ha, hk]

theorem sub (a b c : BitVec 4) : Statement (.sub a b c) := by
  obtain ⟨h, ha, hb, hc⟩ := field_packRRR 4 a.toNat b.toNat c.toNat
  simp [Statement, encode, encodeOp, decode_op4 h, ha, hb, hc]

theorem jmpz (a : BitVec 4) (l : BitVec 8) : Statement (.jmpz a l) := by
  obtain ⟨h, ha, hl⟩ := field_packRL 5 a.toNat l.toNat
  simp [Statement, encode, encodeOp, decode_op5 h, ha, hl]

theorem jmpn (a : BitVec 4) (l : BitVec 8) : Statement (.jmpn a l) := by
  obtain ⟨h, ha, hl⟩ := field_packRL 6 a.toNat l.toNat
  simp [Statement, encode, encodeOp, decode_op6 h, ha, hl]

theorem jmp (j : BitVec 12) : Statement (.jmp j) := by
  obtain ⟨h, hj⟩ := field_packJ 7 j.toNat
  simp [Statement, encode, encodeOp, decode_op7 h, hj]

theorem movr (a b c : BitVec 4) : Statement (.movr a b c) := by
  obtain ⟨h, ha, hb, hc⟩ := field_packRRR 8 a.toNat b.toNat c.toNat
  simp [Statement, encode, encodeOp, decode_op8 h, ha, hb, hc]

theorem reserved9 (rest : BitVec 12) : Statement (.reserved9 rest) := by
  obtain ⟨h, hr⟩ := field_reservedWord 9 rest
  simp only [Statement, encode, decode_op9 h, hr]

theorem reserved10 (rest : BitVec 12) : Statement (.reserved10 rest) := by
  obtain ⟨h, hr⟩ := field_reservedWord 10 rest
  simp only [Statement, encode, decode_op10 h, hr]

theorem reserved11 (rest : BitVec 12) : Statement (.reserved11 rest) := by
  obtain ⟨h, hr⟩ := field_reservedWord 11 rest
  simp only [Statement, encode, decode_op11 h, hr]

theorem reserved12 (rest : BitVec 12) : Statement (.reserved12 rest) := by
  obtain ⟨h, hr⟩ := field_reservedWord 12 rest
  simp only [Statement, encode, decode_op12 h, hr]

theorem reserved13 (rest : BitVec 12) : Statement (.reserved13 rest) := by
  obtain ⟨h, hr⟩ := field_reservedWord 13 rest
  simp only [Statement, encode, decode_op13 h, hr]

theorem io (a : BitVec 4) (p : BitVec 3) (d : BitVec 1) : Statement (.io a p d) := by
  obtain ⟨h, ha, hp, hd, -⟩ := field_packIO a.toNat (ioField p.toNat d.toNat)
  obtain ⟨ep, ed⟩ := ioField_parts p d
  simp only [Statement, encode, encodeOp, decode_op14 h, ha, hp, hd, ep, ed, trunc_natCast_toNat]

theorem endOp : Statement .endOp := rfl

end Sys2Proof.Laws.RoundTrip
end

