-- ==== Sys2Proof/Tests/Slice0.lean ====
section
/-! SUPPORT. Tests on small states, with expected results from 95_test_vectors.md (the section is named at each group), the
smoke tests of WellFormed, and for every statement with hypotheses a witness that meets them. -/

namespace Sys2Proof.Tests

open Sys2Proof.Machine Sys2Proof.Asm

/-! ## Helpers -/

/-- A state with MEM_LEN, cells, `pc` and the registers 0 to 3; all else as after a load. -/
def st (len : Nat) (cells : List Cell) (pc : Int) (r0 r1 r2 r3 : Word) : State :=
  (((({ State.reset with mem := { len := len, cells := cells }, pc := pc } : State).setReg 0 r0).setReg 1 r1).setReg 2
    r2).setReg 3 r3

/-- The outcome is a next state with the property. -/
def nextIs (o : Host.Outcome State Fault Refusal) (p : State → Bool) : Bool :=
  match o with
  | .next t => p t
  | .fault _ => false
  | .refused _ => false

/-- The outcome is the fault. -/
def faultIs (o : Host.Outcome State Fault Refusal) (r : Fault) : Bool :=
  match o with
  | .next _ => false
  | .fault r' => r' = r
  | .refused _ => false

/-- Source lines. -/
def src (l : List String) : List Text := l.map String.toList

/-! ## WellFormed: one ill-formed term for each check (R69, R71) -/

theorem test_reserved_not_assigned :
    (Instr.reserved9 0).assigned = false ∧ (Instr.reserved10 0).assigned = false ∧ (Instr.reserved11 0).assigned = false ∧
      (Instr.reserved12 0).assigned = false ∧ (Instr.reserved13 0).assigned = false := by decide

theorem test_fits_load : (Operation.load 16 0).fits = false ∧ (Operation.load 0 256).fits = false ∧
    (Operation.load 15 255).fits = true := by decide

theorem test_fits_store : (Operation.store (-1) 0).fits = false ∧ (Operation.store 0 (-1)).fits = false := by decide

theorem test_fits_add : (Operation.add 16 0 0).fits = false ∧ (Operation.add 0 16 0).fits = false ∧
    (Operation.add 0 0 16).fits = false := by decide

theorem test_fits_loadc : (Operation.loadc 16 0).fits = false ∧ (Operation.loadc 0 128).fits = false ∧
    (Operation.loadc 0 (-129)).fits = false ∧ (Operation.loadc 0 (-128)).fits = true := by decide

theorem test_fits_sub : (Operation.sub 16 0 0).fits = false ∧ (Operation.sub 0 16 0).fits = false ∧
    (Operation.sub 0 0 16).fits = false := by decide

theorem test_fits_jmpz : (Operation.jmpz 16 0).fits = false ∧ (Operation.jmpz 0 128).fits = false := by decide

theorem test_fits_jmpn : (Operation.jmpn 16 0).fits = false ∧ (Operation.jmpn 0 (-129)).fits = false := by decide

theorem test_fits_jmp : (Operation.jmp 2048).fits = false ∧ (Operation.jmp (-2049)).fits = false ∧
    (Operation.jmp (-2048)).fits = true := by decide

theorem test_fits_movr : (Operation.movr 16 0 0).fits = false ∧ (Operation.movr 0 16 0).fits = false ∧
    (Operation.movr 0 0 8).fits = false ∧ (Operation.movr 0 0 (-9)).fits = false := by decide

theorem test_fits_io : (Operation.io 16 0 0).fits = false ∧ (Operation.io 0 8 0).fits = false ∧
    (Operation.io 0 0 2).fits = false ∧ (Operation.io 15 7 1).fits = true ∧ (Operation.io 0 (-1) 0).fits = false ∧
    (Operation.io 0 0 (-1)).fits = false := by decide

/-! ## The word model (section 2.1) -/

theorem test_trunc : trunc 8 200 = 0xC8 ∧ trunc 12 (-3) = 0xFFD ∧ trunc 4 31 = 0xF ∧ trunc 4 (-8) = 8 ∧
    trunc 16 65536 = 0 ∧ trunc 16 (-32768) = 0x8000 := by decide

theorem test_signed : toSigned (0x8 : BitVec 4) = -8 ∧ toSigned (0x80 : BitVec 8) = -128 ∧
    toSigned (0x7FF : BitVec 12) = 2047 ∧ toSigned (0x8000 : BitVec 16) = -32768 ∧ toSigned (0xFF : BitVec 8) = -1 := by
  decide

theorem test_sext : sext (0xFE : BitVec 8) = 0xFFFE ∧ sext (0x80 : BitVec 8) = 0xFF80 ∧ sext (0x7F : BitVec 8) = 0x7F := by
  decide

theorem test_field : field 0x812D 0 4 = 8 ∧ field 0x812D 8 4 = 2 ∧ field 0xE5D0 8 3 = 6 ∧ field 0xE5D0 11 1 = 1 ∧
    field 0x7ABC 4 12 = 0xABC := by decide

/-! ## Decoding, one word for each constructor (S9 and section 2.2) -/

theorem test_decode_transfer : decode 0b0000101010111100 = .load 10 0xBC ∧ decode 0b0001101010111100 = .store 10 0xBC ∧
    decode 0b0011101010111100 = .loadc 10 0xBC ∧ decode 0b1000000100101101 = .movr 1 2 0xD := by decide

theorem test_decode_arith : decode 0b0010000100100011 = .add 1 2 3 ∧ decode 0b0100000100100011 = .sub 1 2 3 := by decide

theorem test_decode_jumps : decode 0b0101101010111100 = .jmpz 10 0xBC ∧ decode 0b0110101010111100 = .jmpn 10 0xBC ∧
    decode 0b0111101010111100 = .jmp 0xABC := by decide

theorem test_decode_io_end : decode 0b1110010111010000 = .io 5 6 1 ∧ decode 0b1111000000000000 = .endOp ∧
    decode 0xFFFF = .endOp ∧ decode 0xE02F = .io 0 1 0 := by decide

theorem test_decode_reserved : decode 0x9ABC = .reserved9 0xABC ∧ decode 0xA000 = .reserved10 0 ∧
    decode 0xB123 = .reserved11 0x123 ∧ decode 0xCFFF = .reserved12 0xFFF ∧ decode 0xD001 = .reserved13 1 := by decide

theorem test_encode_cuts : packRL 3 0 (-1) = 0x30FF ∧ packRL 0 16 256 = 0 ∧ packRRR 2 16 31 15 = 0x20FF ∧
    packRRR 8 2 1 (-1) = 0x821F ∧ packJ 7 (-2048) = 0x7800 ∧ packIO 5 14 = 0xE5E0 ∧ packIO 0 16 = 0xE000 ∧
    packN 15 = 0xF000 := by decide

/-- R70: `(P << 1) | D` of negative indices: (-2 | 1) = -1, (2 | -4) = -2, (-4 | -2) = -2. -/
theorem test_encode_io_negative : ioField (-1) 1 = -1 ∧ ioField 1 (-4) = -2 ∧ ioField (-2) (-2) = -2 ∧ ioField 7 0 = 14 ∧
    encodeOp (.io 0 (-1) 0) = 0xE0E0 ∧ encodeOp (.io 0 0 (-1)) = 0xE0F0 := by decide

theorem test_encode_drops_unused : encode (decode 0xE5DF) = 0xE5D0 ∧ encode (decode 0xFABC) = 0xF000 ∧
    encode (decode 0x812D) = 0x812D := by decide

theorem test_decodeTableWord : decodeTableWord 16 0x4123 = some (.sub 1 2 3) ∧ decodeTableWord 17 0 = none := by decide

/-! ## Instructions (sections 2.3 to 2.6) -/

theorem test_load : nextIs (step (st 7 [(0, 0x0006), (6, 7)] 0 0 0 0 0)) (fun t => t.reg 0 = 7 ∧ t.pc = 1) := by decide

theorem test_load_outside : faultIs (step (st 2 [(0, 0x0005)] 0 0 0 0 0)) (.memBounds 5) := by decide

theorem test_store : nextIs (step (st 11 [(6, 0x130A)] 6 0 0 0 5)) (fun t => t.mem.read 10 = some 5 ∧ t.pc = 7) := by decide

theorem test_store_next_instruction :
    nextIs (step (st 2 [(0, 0x1001), (1, 0x3101)] 0 0xF000 0 0 0)) (fun t => fetch t = some 0xF000) := by decide

theorem test_loadc_sign : nextIs (exec (.loadc 0 0xC8) (st 1 [] 0 0 0 0 0)) (fun t => t.reg 0 = 0xFFC8 ∧ t.pc = 1) := by
  decide

theorem test_movr_base_is_destination :
    nextIs (step (st 4 [(0, 0x8110), (3, 1)] 0 0 3 0 0)) (fun t => t.reg 1 = 1) := by decide

theorem test_movr_no_wrap : faultIs (step (st 2 [(0, 0x800F)] 0 0 0 0 0)) (.memBounds (-1)) ∧
    faultIs (step (st 2 [(0, 0x8001)] 0 0xFFFF 0 0 0)) (.memBounds 65536) := by decide

theorem test_add_wraps : nextIs (exec (.add 3 1 2) (st 1 [] 0 0 0x7FFF 1 0)) (fun t => t.reg 3 = 0x8000 ∧ t.pc = 1) := by
  decide

theorem test_add_all_same : nextIs (exec (.add 1 1 1) (st 1 [] 0 0 0x4000 0 0)) (fun t => t.reg 1 = 0x8000) := by decide

theorem test_sub_order : nextIs (exec (.sub 3 1 2) (st 1 [] 0 0 3 1 0)) (fun t => t.reg 3 = 2) := by decide

theorem test_sub_wraps : nextIs (exec (.sub 3 1 2) (st 1 [] 0 0 0 0x8000 0)) (fun t => t.reg 3 = 0x8000) := by decide

theorem test_jmpz_taken : nextIs (exec (.jmpz 0 4) (st 9 [] 3 0 0 0 0)) (fun t => t.pc = 7) ∧
    nextIs (exec (.jmpz 0 0x80) (st 9 [] 0 0 0 0 0)) (fun t => t.pc = -128) := by decide

theorem test_jmpz_not_taken : nextIs (exec (.jmpz 0 4) (st 9 [] 3 0x8000 0 0 0)) (fun t => t.pc = 4) := by decide

theorem test_jmpn_taken : nextIs (exec (.jmpn 2 2) (st 9 [] 4 0 0 0x8000 0)) (fun t => t.pc = 6) := by decide

theorem test_jmpn_not_taken : nextIs (exec (.jmpn 2 2) (st 9 [] 4 0 0 0 0)) (fun t => t.pc = 5) ∧
    nextIs (exec (.jmpn 2 2) (st 9 [] 4 0 0 0x7FFF 0)) (fun t => t.pc = 5) := by decide

theorem test_jmp_back : nextIs (exec (.jmp 0xFFD) (st 9 [] 6 0 0 0 0)) (fun t => t.pc = 3) := by decide

theorem test_jmp_lands : nextIs (step (State.load [0x7005, 0xF000, 0xF000, 0xF000, 0xF000, 0xF000])) (fun t => t.pc = 5) := by
  decide

theorem test_io_out : nextIs (step (st 1 [(0, 0xE030)] 0 7 0 0 0)) (fun t => t.port 1 = 7 ∧ t.reg 0 = 7 ∧ t.pc = 1) := by
  decide

theorem test_io_in : nextIs (step ((st 1 [(0, 0xE02F)] 0 0 0 0 0).setPort 1 21)) (fun t => t.reg 0 = 21 ∧ t.port 1 = 21) := by
  decide

theorem test_end_stays : nextIs (step (st 4 [(3, 0xF000)] 3 0 0 0 0)) (fun t => t = st 4 [(3, 0xF000)] 3 0 0 0 0) := by decide

theorem test_reserved9 : nextIs (step (st 3 [(2, 0x9000)] 2 0 0 0 0)) (fun t =>
    t = { st 3 [(2, 0x9000)] 3 0 0 0 0 with reports := [{ addr := 2, word := 0x9000 }] }) := by decide

theorem test_reserved13 : nextIs (step (st 1 [(0, 0xDFFF)] 0 0 0 0 0)) (fun t =>
    t.pc = 1 ∧ t.reports = [{ addr := 0, word := 0xDFFF }]) := by decide

theorem test_reserved_middle : nextIs (step (st 1 [(0, 0xA001)] 0 0 0 0 0)) (fun t => t.reports = [⟨0, 0xA001⟩]) ∧
    nextIs (step (st 1 [(0, 0xB123)] 0 0 0 0 0)) (fun t => t.reports = [⟨0, 0xB123⟩]) ∧
    nextIs (step (st 1 [(0, 0xCFFF)] 0 0 0 0 0)) (fun t => t.reports = [⟨0, 0xCFFF⟩]) := by decide

theorem test_first_step_after_reset :
    nextIs (step (State.reset.withFetchWord 16 0x3005)) (fun t => t.reg 0 = 5 ∧ t.pc = 1 ∧ t.mem.len = 1) := by decide

theorem test_fetch_word_negative_pc :
    nextIs (step ((State.reset.setPc (-3)).withFetchWord 16 0x3005)) (fun t => t.reg 0 = 5 ∧ t.pc = 1) := by decide

/-! ## The loop and the host (section 2.7) -/

theorem test_loop_off_memory : stepCall (-1) 3 (State.load [0x3001]) = .returned ((State.load [0x3001]).setPc (-1)) := by
  decide

theorem test_loop_fault_keeps_earlier : stepCall 0 10 (State.load [0x3105, 0x8210, 0xF000]) =
    .faulted (.memBounds 5) (((State.load [0x3105, 0x8210, 0xF000]).setReg 1 5).setPc 1) := by decide

theorem test_clean_and_ended :
    (stepCall 0 5 (State.load [0x9000, 0xF000])).clean = false ∧ (stepCall 0 5 (State.load [0x9000, 0xF000])).ended = true ∧
      (stepCall 0 5 (State.load [0x7000])).clean = true ∧ (stepCall 0 5 (State.load [0x7000])).ended = false := by decide

theorem test_host_run : hostRun [.load [0xE020, 0xF000], .writePort 1 21, .step 2] State.reset =
    .returned ((((State.load [0xE020, 0xF000]).setPort 1 21).setReg 0 21).setPc 1) := by decide

/-- R202: the two halts, a spent budget, a fault and the reports of a call (0x9000 is reported at 0). -/
theorem test_call_conditions :
    callConditions 0 5 (State.load [0x9000, 0xF000]) = [.unknownOpcode 0 0x9000, .haltedAtEnd 1] ∧
    callConditions 0 1 (State.load [0x9000, 0xF000]) = [.unknownOpcode 0 0x9000] ∧
    callConditions (-1) 1 (State.load [0x9000]) = [.haltedOffMemory (-1)] ∧
    callConditions 0 2 (State.load [0x9000, 0x0005]) = [.unknownOpcode 0 0x9000, .memBounds 5] := by decide

theorem test_assembly_condition :
    assemblyCondition (src ["NOP"]) true = some (.unknownInstruction "NOP".toList "NOP".toList) ∧
    assemblyCondition (src ["END"]) true = none := by decide

/-- D30: nothing but a load clears a fault; the port write of R210 has its effect. -/
theorem test_load_clears_fault : hostRun [.load [0x0005], .step 1, .stepFrom 0 1, .loadFailed, .writePort 2 9] State.reset =
      .faulted (.memBounds 5) ((State.load [0x0005]).setPort 2 9) ∧
    hostRun [.load [0x0005], .step 1, .load [0x3007], .step 1] State.reset =
      .returned (((State.load [0x3007]).setReg 0 7).setPc 1) := by decide

/-! ## The text form and the loader (P1, R51, R52) -/

theorem test_word_text : wordText 0x3005 = "0011000000000101".toList := by decide

theorem test_loader : loadText (src ["0011000000000101", "short", "1111000000000000"]) = some [0x3005, 0xF000] ∧
    loadText (src ["00110000000001x1"]) = none := by decide

/-! ## The assembler (S4, S5, sections 2.8 and 2.9) -/

theorem test_asm_unified : assembleFile (src ["MOV R0, X", "MOV X, R1", "END", ".data", "X: WORD 1 2"]) true =
    .ok [0x0003, 0x1103, 0xF000, 1, 2] := by decide

theorem test_asm_separate : assembleFile (src ["MOV R0, X", "MOV X, R1", "END", ".data", "X: WORD 1 2"]) false =
    .ok [0x0000, 0x1100, 0xF000] := by decide

theorem test_asm_preparation : assembleFile (src ["  // only a comment", "", "ADD R2,R0 ,  R1 // t"]) true = .ok [0x2201] := by
  decide

theorem test_asm_last_declaration : assembleFile (src ["a: MOV R0, #1", "a: MOV R0, #2", "JMP a", "END"]) true =
    .ok [0x3001, 0x3002, 0x7FFF, 0xF000] := by decide

theorem test_asm_label_only : assembleFile (src ["JMP e", "MOV R0,#1", "e:"]) true = .ok [0x7002, 0x3001] := by decide

theorem test_asm_word_values : assembleFile (src [".data", "WORD 65535 65536 -32768"]) true = .ok [0xFFFF, 0, 0x8000] := by
  decide

theorem test_asm_movs : assembleFile (src ["MOV R0, #200", "MOV R0, -1", "MOV 10, R3", "MOV D1, R0, P1", "MOVR R2, R1, #-1"])
    true = .ok [0x30C8, 0x00FF, 0x130A, 0xE030, 0x821F] := by decide

theorem test_asm_jumps : assembleFile (src ["f: JMPZ R1, -2", "JMPN R2, f", "JMP 2048", "SUB R0, R0, R1"]) true =
    .ok [0x51FE, 0x62FF, 0x7800, 0x4001] := by decide

theorem test_asm_unknown_instruction : assembleFile (src ["NOP"]) true =
    .error (.unknownInstruction "NOP".toList "NOP".toList) := by decide

theorem test_asm_unknown_directive : assembleFile (src [".data", "BYTE 1"]) true =
    .error (.unknownDataDirective "BYTE".toList "BYTE 1".toList) := by decide

theorem test_asm_format_before_label : assembleFile (src ["MOV X, #1"]) true =
    .error (.formatError "MOV".toList "MOV X, #1".toList) := by decide

theorem test_asm_register_shaped_label : assembleFile (src ["R1: END", "JMP R1"]) true =
      .error (.formatError "JMP".toList "JMP R1".toList) ∧
    assembleFile (src ["MOV R0, @R1"]) true = .error (.unknownLabel "MOV R0, @R1".toList) := by decide

/-! ## Witnesses: a state and operands that meet each statement's hypotheses -/

theorem witness_WordReadings : (0x80 : BitVec 8).getLsbD (8 - 1) = true ∧ (0x7F : BitVec 8).getLsbD (8 - 1) = false ∧
    8 ≤ 16 := by decide

theorem witness_FieldExtraction : 1 ≤ 4 ∧ 12 + 4 ≤ 16 := by decide

theorem witness_SignedFieldReadsBack : 1 ≤ 8 ∧ fitsSigned (-128) 8 = true ∧ fitsSigned 127 8 = true ∧ fitsSigned (-1) 1 = true := by
  decide

theorem witness_DecoderTotal : 0xE5D0 = (0xE5D0 : Word).toNat := by decide

theorem witness_EncodeOfDecode : (field 0xE5D0 0 4 = 14 ∧ field 0xE5D0 12 4 = 0) ∧
    (field 0xF000 0 4 = 15 ∧ field 0xF000 4 12 = 0) := by decide

theorem witness_FittingOperandsReadBack : (Operation.movr 15 1 (-8)).fits = true ∧ (Operation.io 15 7 1).fits = true := by decide

theorem witness_LoadGivesImage : (-1 : Int) < 0 := by decide

theorem witness_StepKeepsWellFormed : (State.load [0x1001, 0x3101]).wf = true ∧
    ∃ t, step (State.load [0x1001, 0x3101]) = .next t := ⟨by decide, _, rfl⟩

theorem witness_HostKeepsWellFormed : (State.load [0x1001]).wf = true ∧
    (∃ t, hostAct (.step 0) (State.load [0x1001]) = .returned t) ∧
    ∃ r t, hostAct (.step 1) (State.load [0x1001]) = .faulted r t := ⟨by decide, ⟨_, rfl⟩, _, _, rfl⟩

theorem witness_HostKeepsWellFormed_runs : State.reset.wf = true ∧
    (∃ t, hostRun [.load [0x1001], .step 1, .load [0x3001]] State.reset = .returned t) ∧
    ∃ r t, hostRun [.load [0x1001], .step 1] State.reset = .faulted r t := ⟨by decide, ⟨_, rfl⟩, _, _, rfl⟩

theorem witness_LoadCompletes : (0xFF : BitVec 8).toNat < (st 256 [(255, 0x1234)] 0 0 0 0 0).mem.len := by decide

theorem witness_StoreCompletes : (st 256 [] 0 5 0 0 0).wf = true ∧ (0xFF : BitVec 8).toNat < (st 256 [] 0 5 0 0 0).mem.len := by
  decide

theorem witness_MovrCompletes : (0 : Int) = ((st 1 [] 0 0 8 0 0).reg 1).toNat + (if (8 : BitVec 4).toNat < 8 then
    (((8 : BitVec 4).toNat : Nat) : Int) else ((8 : BitVec 4).toNat : Nat) - 16) ∧ (0 : Int) < (st 1 [] 0 0 8 0 0).mem.len := by
  decide

theorem witness_OutsideMemoryFaults_absolute : (st 5 [] 0 0 0 0 0).mem.len ≤ (5 : BitVec 8).toNat := by decide

theorem witness_OutsideMemoryFaults_movr_below : (-1 : Int) = ((st 1 [] 0 0 7 0 0).reg 1).toNat +
    (if (8 : BitVec 4).toNat < 8 then (((8 : BitVec 4).toNat : Nat) : Int) else ((8 : BitVec 4).toNat : Nat) - 16) := by decide

theorem witness_OutsideMemoryFaults_movr_above : (65542 : Int) = ((st 1 [] 0 0 0xFFFF 0 0).reg 1).toNat +
    (if (7 : BitVec 4).toNat < 8 then (((7 : BitVec 4).toNat : Nat) : Int) else ((7 : BitVec 4).toNat : Nat) - 16) ∧
    ((st 1 [] 0 0 0xFFFF 0 0).mem.len : Int) ≤ 65542 := by decide

theorem witness_ArithmeticModulo : (∃ t, exec (.add 3 1 2) (st 1 [] 0 0 0x7FFE 1 0) = .next t) ∧
    (∃ t, exec (.sub 3 1 2) (st 1 [] 0 0 0x8001 1 0) = .next t) ∧
    ((0x7FFE : Word).toInt + (1 : Word).toInt ≤ 32767) ∧ (-32768 ≤ (0x8001 : Word).toInt - (1 : Word).toInt) :=
  ⟨⟨_, rfl⟩, ⟨_, rfl⟩, by decide, by decide⟩

theorem witness_EndCompletes : fetch (st 1 [(0, 0xF000)] 0 0 0 0 0) = some 0xF000 ∧ 0xF000 ≤ (0xF000 : Word).toNat ∧
    fetch (st 1 [(0, 0xFFFF)] 0 0 0 0 0) = some 0xFFFF := by decide

theorem witness_OnlyDataAccessFaults : (∃ r, exec (.load 0 0) (st 0 [] 0 0 0 0 0) = .fault r) ∧
    (∃ r, exec (.store 0 0) (st 0 [] 0 0 0 0 0) = .fault r) ∧ (∃ r, exec (.movr 0 0 8) (st 1 [] 0 0 0 0 0) = .fault r) :=
  ⟨⟨_, rfl⟩, ⟨_, rfl⟩, ⟨_, rfl⟩⟩

theorem witness_MemoryChangesOnlyByStore : nextIs (exec (.store 0 0) (st 1 [] 0 5 0 0 0)) (fun t =>
    t.mem.read 0 ≠ (st 1 [] 0 5 0 0 0).mem.read 0) = true := by decide

theorem witness_OnlyOutboundIoWritesPorts : nextIs (exec (.io 0 7 1) (st 1 [] 0 5 0 0 0)) (fun t =>
    t.port 7 ≠ (st 1 [] 0 5 0 0 0).port 7) = true := by decide

theorem witness_RegisterWriters : nextIs (exec (.io 3 7 0) (st 1 [] 0 0 0 0 5)) (fun t =>
    t.reg 3 ≠ (st 1 [] 0 0 0 0 5).reg 3) = true := by decide

theorem witness_ReportsAreReservedWords_reserved : fetch (st 1 [(0, 0x9FFF)] 0 0 0 0 0) = some 0x9FFF ∧
    (∃ t, step (st 1 [(0, 0x9FFF)] 0 0 0 0 0) = .next t) ∧ ∃ t, step (st 1 [(0, 0xD000)] 0 0 0 0 0) = .next t :=
  ⟨by decide, ⟨_, rfl⟩, _, rfl⟩

theorem witness_ReportsAreReservedWords_others : (∃ t, step (st 1 [(0, 0x8000)] 0 0 0 0 0) = .next t) ∧
    (∃ t, step (st 1 [(0, 0xE000)] 0 0 0 0 0) = .next t) ∧ fetch (st 0 [] 0 0 0 0 0) = none :=
  ⟨⟨_, rfl⟩, ⟨_, rfl⟩, by decide⟩

theorem witness_PcAfterStep_jmpz : fetch (st 1 [(0, 0x5080)] 0 0 0 0 0) = some 0x5080 ∧
    (0x5080 : Word).toNat / 4096 = 5 ∧ (st 1 [(0, 0x5080)] 0 0 0 0 0).reg (field 0x5080 4 4) = 0 ∧
    nextIs (step (st 1 [(0, 0x5080)] 0 0 0 0 0)) (fun t => t.pc = -128) := by decide

theorem witness_PcAfterStep_others :
    nextIs (step (st 1 [(0, 0x607F)] 0 0x8000 0 0 0)) (fun t => t.pc = 127) ∧
      nextIs (step (st 1 [(0, 0x77FF)] 0 0 0 0 0)) (fun t => t.pc = 2047) ∧
      nextIs (step (st 1 [(0, 0xF000)] 0 0 0 0 0)) (fun t => t.pc = 0) ∧
      nextIs (step (st 1 [(0, 0x607F)] 0 0x7FFF 0 0 0)) (fun t => t.pc = 1) := by decide

theorem witness_PortsSeenOnlyByInboundIo : ∀ a p, Instr.io 0 1 1 ≠ .io a p 0 := by decide

theorem witness_StoreSeenByNextFetch : (st 2 [(0, 0x1001)] 0 0xF000 0 0 0).wf = true ∧
    fetch (st 2 [(0, 0x1001)] 0 0xF000 0 0 0) = some 0x1001 ∧ decode 0x1001 = .store 0 1 ∧
    nextIs (step (st 2 [(0, 0x1001)] 0 0xF000 0 0 0)) (fun _ => true) ∧
    (((1 : BitVec 8).toNat : Nat) : Int) = (st 2 [(0, 0x1001)] 0 0xF000 0 0 0).pc + 1 := by decide

theorem witness_StepRunsDecoded : fetch (st 1 [(0, 0x2201)] 0 5 5 0 0) = some 0x2201 ∧ decode 0x2201 = .add 2 0 1 ∧
    nextIs (step (st 1 [(0, 0x2201)] 0 5 5 0 0)) (fun _ => true) := by decide

theorem test_running_halted : running (st 1 [(0, 0x9000)] 0 0 0 0 0) = true ∧ running (st 1 [(0, 0xFFFF)] 0 0 0 0 0) = false := by
  decide

theorem witness_OffMemoryHalts_halts : (st 0 [] 0 0 0 0 0).mem.read 0 = none ∧
    (st 1 [(0, 0xFFFF)] 0 0 0 0 0).mem.read 0 = some 0xFFFF ∧ (st 1 [(0, 0xE000)] 0 0 0 0 0).mem.read 0 = some 0xE000 ∧
    loopHalt 2 (st 2 [(1, 0xF000)] 0 0 0 0 0) = some (.haltedAtEnd 1) := by decide

theorem witness_OffMemoryHalts_calls : (∃ t, stepLoop 1 (State.load [0x7001]) = .returned t) ∧
    (∃ t, stepCall 0 2 (State.load [0x9000]) = .returned t) ∧
    ∃ t, stepCall 0 2 (State.load [0x9000, 0x0005]) = .faulted (.memBounds 5) t := ⟨⟨_, rfl⟩, ⟨_, rfl⟩, _, rfl⟩

theorem witness_OffMemoryHalts : (st 1 [] (-1) 0 0 0 0).pc < 0 ∧ ((st 1 [] 1 0 0 0 0).mem.len : Int) ≤ (st 1 [] 1 0 0 0 0).pc := by
  decide

theorem witness_EndStays : fetch (st 1 [(0, 0xF000)] 0 0 0 0 0) = some 0xF000 ∧ (0xF000 : Word).toNat / 4096 = 15 ∧
    ∃ t, stepCall 0 3 (st 1 [(0, 0xF000)] 0 0 0 0 0) = .returned t := ⟨by decide, by decide, _, rfl⟩

theorem witness_BudgetCountsInstructions_running : running (st 1 [(0, 0x7000)] 0 0 0 0 0) = true ∧
    nextIs (step (st 1 [(0, 0x7000)] 0 0 0 0 0)) (fun _ => true) := by decide

theorem witness_BudgetCountsInstructions_fault : running (st 1 [(0, 0x0001)] 0 0 0 0 0) = true ∧
    faultIs (step (st 1 [(0, 0x0001)] 0 0 0 0 0)) (.memBounds 1) := by decide

theorem witness_BudgetCountsInstructions_halted : halted (st 1 [(0, 0xF000)] 0 0 0 0 0) = true ∧
    halted (st 0 [] 0 0 0 0 0) = true := by decide

theorem witness_HostWritesOnePort : hostRun [.load [0x3005, 0xF000], .step 1] State.reset =
      .returned (((State.load [0x3005, 0xF000]).setReg 0 5).setPc 1) ∧
    hostRun ([.load [0x3005, 0xF000], .step 1] ++ [.writePort 7 9]) State.reset =
      .returned ((((State.load [0x3005, 0xF000]).setReg 0 5).setPc 1).setPort 7 9) := by decide

theorem witness_FaultKeepsEarlierEffects : (∃ r t, stepLoop 2 (State.load [0x3105, 0x8210]) = .faulted r t) ∧
    ∃ r t, hostRun [.load [0x3105, 0x8210], .step 2] State.reset = .faulted r t := ⟨⟨_, _, rfl⟩, _, _, rfl⟩

theorem test_tokenize_splits : tokenize "ADD R2".toList = ["ADD".toList, "R2".toList] := rfl

theorem witness_TokenizeSplits : "ADD".toList ∈ tokenize "ADD R2".toList ∧ "ADD".toList ≠ [] ∧
    (∀ c ∈ "ADD".toList, isSeparator c = false) ∧ (∀ c ∈ " ,".toList, isSeparator c = true) ∧
    tokenize "R2".toList = ["R2".toList] :=
  ⟨by rw [test_tokenize_splits]; simp, by decide, by simp [isSeparator, isSpace], by simp [isSeparator, isSpace], rfl⟩

theorem witness_TokenizeSplits_none : (∀ c ∈ " ,".toList, isSeparator c = true) ∧ tokenize " ,".toList = [] ∧ tokenize [] = [] :=
  ⟨by simp [isSeparator, isSpace], rfl, rfl⟩

theorem witness_TokenizeSplits_trim : (∀ c ∈ ['\t', ' '], isSpace c = true) ∧ (∀ c ∈ ['\r'], isSpace c = true) ∧
    (∀ c ∈ ['a', ' ', 'b'].head?, isSpace c = false) ∧ (∀ c ∈ ['a', ' ', 'b'].getLast?, isSpace c = false) ∧
    trim ['\t', ' ', 'a', ' ', 'b', '\r'] = ['a', ' ', 'b'] :=
  ⟨by simp [isSpace], by simp [isSpace], by simp [isSpace], by simp [isSpace], rfl⟩

theorem witness_TokenizeSplits_prepare : ¬ ['/', '/'] <:+: ['a', '/', 'b'] ∧ ¬ ['/', '/'] <:+: ['a', ' '] ++ ['/'] ∧
    prepare ['a', '/', 'b'] = some ['a', '/', 'b'] ∧ prepare ['a', ' ', '/', '/', '/', 'b'] = some ['a'] ∧
    prepare [' ', '/', '/'] = none := by decide

theorem witness_Pass1Counts : ∃ p, pass1 (src ["a: END", ".data", "b: WORD 1"]) = .ok p ∧ p.tl ≠ [] ∧ p.dl ≠ [] :=
  ⟨_, rfl, by decide, by decide⟩

theorem witness_LineContents_label : ':' ∉ "a".toList ∧ "a: END".toList = "a".toList ++ ':' :: " END".toList ∧
    tokenize " END".toList = ["END".toList] ∧ tokenize ([] : Text) = [] ∧ ':' ∉ "END".toList :=
  ⟨by decide, by decide, rfl, rfl, by decide⟩

/-- R151 to R153: bound before the line is counted; a label-only line emits nothing; the last declaration wins. -/
theorem test_labels_declared : ∃ p, pass1 (src ["a: END", "b:", "c: END", ".data", "x: WORD 1 2", "a: WORD", "x:"]) = .ok p ∧
    p.tl = [("a".toList, 0), ("b".toList, 1), ("c".toList, 1)] ∧ p.dl = [("x".toList, 2), ("a".toList, 2)] ∧
    p.ic = 2 ∧ p.dc = 2 := ⟨_, rfl, by decide, by decide, by decide, by decide⟩

/-- R144, R145, U13. -/
theorem test_classes : ["R1", "D0", "P3", "#-2", "@R1", "-7", "R", "R1a", "_x", "+5", "#", "-"].map (fun t => classify t.toList) =
    [.register 1, .device 0, .port 3, .constant (-2), .address "R1".toList, .number (-7), .label "R".toList,
      .label "R1a".toList, .other, .other, .other, .other] := by decide

theorem witness_LineContents_markers : parseContent Pass1.start kwData [] kwData = .ok { Pass1.start with seg := .data } ∧
    parseContent Pass1.start kwText [] kwText = .ok Pass1.start := by decide

theorem witness_LineContents_text : Pass1.start.seg = .text ∧ Mnemonic.endOp.text = "END".toList ∧
    (∀ m : Mnemonic, m ∈ mnemonics → "NOP".toList ≠ m.text) ∧ "NOP".toList ≠ kwData ∧ "NOP".toList ≠ kwText := by decide

theorem witness_LineContents_data : ({ Pass1.start with seg := .data } : Pass1).seg = .data ∧
    ["1".toList, "-2".toList].map classify = [1, -2].map TokenClass.number ∧ classify "x".toList = .label "x".toList ∧
    "BYTE".toList ≠ kwWord ∧ "BYTE".toList ≠ kwData ∧ "BYTE".toList ≠ kwText := by decide

theorem witness_LabelsMerge : ∃ p, pass1 (src ["x: END", ".data", "x: WORD 9"]) = .ok p ∧
    (p.labels true).find "x".toList = some 1 := ⟨_, rfl, by decide⟩

theorem witness_OutputStream : assembleFile (src ["END", ".data", "WORD 9"]) true = .ok [0xF000, 9] ∧
    ∃ p, pass1 (src ["END", ".data", "WORD 9"]) = .ok p ∧ p.ts ≠ [] ∧ p.ds = [9] :=
  ⟨by decide, _, rfl, by decide, by decide⟩

theorem witness_OutputStream_resolves : ∃ p e, pass1 (src ["END"]) = .ok p ∧ p.ts = [e] ∧
    resolve (p.labels true) 0 e = .ok .endOp := ⟨_, _, rfl, rfl, rfl⟩

theorem witness_ArithmeticAndEndShapes : ([TokenClass.register 1] : List TokenClass) ≠ [] ∧
    ["R1", "R2", "R3"].map (fun t => classify t.toList) = [.register 1, .register 2, .register 3] ∧
    ∀ a b c : Nat, [TokenClass.register 1] ≠ [.register a, .register b, .register c] := ⟨by decide, by decide, by simp⟩

theorem witness_Pass2Errors_dispatch : ["END".toList, "x".toList] = Mnemonic.text .endOp :: ["x".toList] ∧
    resolve [] 0 { tokens := ["END".toList, "x".toList], line := [] } = .error (.formatError "END".toList []) := by decide

theorem witness_Pass2Errors_shape : ∀ (lt : LabelTable) (op : Operation),
    resolveOperands .mov lt 0 [.label ['x'], .constant 1] ['l'] ≠ .ok op := by
  intro lt op h
  cases h

theorem witness_Pass2Errors_label : resolveOperands .mov [(['x'], 3)] 0 [.register 0, .label ['x']] ['l'] = .ok (.load 0 3) ∧
    (TokenClass.label ['x'] ∈ [TokenClass.register 0, .label ['x']]) ∧ LabelTable.find [] ['x'] = none ∧
    LabelTable.find [(['x'], 3)] ['x'] ≠ none ∧
    resolveOperands .mov [] 0 [.register 0, .label ['x']] ['l'] = .error (.unknownLabel ['l']) := by decide

theorem witness_Pass2Errors_assembly : pass1 (src ["NOP"]) = .error (.unknownInstruction "NOP".toList "NOP".toList) ∧
    ∃ p e, pass1 (src ["END", "JMP x"]) = .ok p ∧ p.ts[1]? = some e ∧ (p.ts[0]?.isSome = true) ∧
      resolve (p.labels true) 1 e = .error (.unknownLabel "JMP x".toList) := ⟨by decide, _, _, rfl, rfl, rfl, rfl⟩

theorem witness_JumpToLabelLands_jmp : LabelTable.find [(['t'], 5)] ['t'] = some 5 ∧ (st 9 [] 7 0 0 0 0).pc = ((7 : Nat) : Int) ∧
    fitsSigned ((5 : Int) - 7) 12 = true ∧
    resolveOperands .jmp [(['t'], 5)] 7 [.label ['t']] [] = .ok (.jmp (-2)) := by decide

theorem witness_JumpToLabelLands_conditional : fitsSigned ((5 : Int) - 7) 8 = true ∧ (1 : Nat) < 16 ∧
    resolveOperands .jmpz [(['t'], 5)] 7 [.register 1, .label ['t']] [] = .ok (.jmpz 1 (-2)) ∧
    (st 9 [] 7 0 0 0 0).reg (BitVec.ofNat 4 1) = 0 ∧
    resolveOperands .jmpn [(['t'], 5)] 7 [.register 1, .label ['t']] [] = .ok (.jmpn 1 (-2)) ∧
    ((st 9 [] 7 0 0x8000 0 0).reg (BitVec.ofNat 4 1)).toInt < 0 := by decide

theorem witness_AssembledCodeIsFetched : assembleFile (src ["MOV R0, #5", "END"]) true = .ok [0x3005, 0xF000] ∧
    ∃ p e, pass1 (src ["MOV R0, #5", "END"]) = .ok p ∧ p.ts[1]? = some e := ⟨by decide, _, _, rfl, rfl⟩

theorem witness_LoaderReadsBack : 15 < 16 ∧ (wordText 0x3005)[15]? = some '1' := by decide

theorem witness_LoaderReadsBack_refused : ("00110000000001x1".toList).length = 16 ∧
    ∃ c ∈ "00110000000001x1".toList, c ≠ '0' ∧ c ≠ '1' := ⟨by decide, 'x', by simp, by decide⟩

end Sys2Proof.Tests
end

namespace Sys2Proof.WordReading

/-! ## R9: the readings of a `W`-bit value

`toSigned` is defined by the top bit as `msb`; the statement names that bit by its position, `getLsbD (W - 1)`. The
complement form of the negative reading rests on `v` and its complement summing to `2^W - 1`. -/

theorem toUnsigned_nonneg {W : Nat} (v : BitVec W) : 0 ≤ toUnsigned v :=
  Int.natCast_nonneg _

theorem toUnsigned_lt {W : Nat} (v : BitVec W) : toUnsigned v < 2 ^ W := by
  unfold toUnsigned
  exact_mod_cast v.isLt

theorem toSigned_of_topBit_clear {W : Nat} {v : BitVec W} (h : v.getLsbD (W - 1) = false) : toSigned v = v.toNat := by
  rw [← BitVec.msb_eq_getLsbD_last] at h
  simp [toSigned, h]

theorem toSigned_of_topBit_set {W : Nat} {v : BitVec W} (h : v.getLsbD (W - 1) = true) :
    toSigned v = v.toNat - 2 ^ W := by
  rw [← BitVec.msb_eq_getLsbD_last] at h
  simp [toSigned, h]

theorem toNat_add_toNat_not_add_one {W : Nat} (v : BitVec W) : v.toNat + ((~~~v).toNat + 1) = 2 ^ W := by
  have hlt := v.isLt
  rw [BitVec.toNat_not]
  omega

/-- R9: the source's own definition of the negative reading, by the bitwise complement. -/
theorem toSigned_eq_neg_not_add_one {W : Nat} {v : BitVec W} (h : v.getLsbD (W - 1) = true) :
    toSigned v = -((~~~v).toNat + 1) := by
  have hsum : (v.toNat : Int) + ((~~~v).toNat + 1) = 2 ^ W := by exact_mod_cast toNat_add_toNat_not_add_one v
  rw [toSigned_of_topBit_set h]
  omega

theorem sext_toNat {W : Nat} (v : BitVec W) : ((sext v).toNat : Int) = toSigned v % 65536 :=
  trunc_toNat 16 (toSigned v)

theorem zext_toNat {W : Nat} (v : BitVec W) (hW : W ≤ 16) : (zext v).toNat = v.toNat := by
  have hlt : v.toNat < 2 ^ 16 := v.isLt.trans_le (Nat.pow_le_pow_right (by decide) hW)
  have hmod : ((zext v).toNat : Int) = v.toNat % 2 ^ 16 := trunc_toNat 16 (toUnsigned v)
  omega

/-- Settles O1: one lemma of this section for each reading; reduction is `trunc_toNat`. -/
theorem wordReadings : Obligations.WordReadings := fun W v n =>
  ⟨rfl, toUnsigned_nonneg v, toUnsigned_lt v, toSigned_of_topBit_clear,
    fun h => ⟨toSigned_of_topBit_set h, toSigned_eq_neg_not_add_one h⟩, sext_toNat v, zext_toNat v, trunc_toNat W n⟩

end Sys2Proof.WordReading

namespace Sys2Proof.StateChange

open Sys2Proof.Machine

/-! ## R20: what an instruction can do to the state

`Effect` lists the six ways an instruction can complete, each with the one component of the state it writes; `exec_cases`
says that there is no seventh. The statements about who writes memory, ports and registers read off it. -/

/-- R20: `r` is the register that `i` writes when it completes. -/
def IsDestination (i : Instr) (r : RegIdx) : Prop :=
  (∃ l, i = .load r l) ∨ (∃ b c, i = .add r b c) ∨ (∃ k, i = .loadc r k) ∨ (∃ b c, i = .sub r b c) ∨
    (∃ b c, i = .movr r b c) ∨ (∃ p, i = .io r p 0)

/-- The next states an instruction can answer from `s`, with the component it writes. R20 asks who writes registers, memory
and ports; which instruction sets only `pc` or reports, and to what, is left open here. -/
inductive Effect (s : State) : Instr → State → Prop
  | regWritten {i : Instr} {a : RegIdx} (v : Word) (h : IsDestination i a) : Effect s i (s.setReg a v).advance
  | memWritten {a : RegIdx} {l : BitVec 8} {m : Memory} (h : s.mem.write (absAddr l) (s.reg a) = some m) :
      Effect s (.store a l) ({ s with mem := m } : State).advance
  | portWritten (a : RegIdx) (p : PortIdx) : Effect s (.io a p 1) (s.setPort p (s.reg a)).advance
  | pcOnly (i : Instr) (target : Int) : Effect s i (s.setPc target)
  | reported (i : Instr) (w : Word) : Effect s i (s.report w).advance
  | unchanged : Effect s .endOp s

/-- The outcome is a next state that `i` can answer, or the one fault. -/
def Completes (i : Instr) (s : State) (o : Host.Outcome State Fault Refusal) : Prop :=
  (∃ t, o = .next t ∧ Effect s i t) ∨ ∃ addr, o = .fault (.memBounds addr)

theorem completes_next {i : Instr} {s t : State} (h : Effect s i t) : Completes i s (.next t) := .inl ⟨t, rfl, h⟩

theorem loadFrom_completes {i : Instr} {a : RegIdx} (addr : Int) (s : State) (h : IsDestination i a) :
    Completes i s (loadFrom a addr s) := by
  obtain ⟨v, -, he⟩ | ⟨-, he⟩ := loadFrom_cases a addr s
  · exact .inl ⟨_, he, .regWritten v h⟩
  · exact .inr ⟨addr, he⟩

theorem execStore_completes (a : BitVec 4) (l : BitVec 8) (s : State) : Completes (.store a l) s (execStore a l s) := by
  obtain ⟨m, hm, he⟩ | ⟨-, he⟩ := storeTo_cases a (absAddr l) s
  · exact .inl ⟨_, he, .memWritten hm⟩
  · exact .inr ⟨_, he⟩

/-- R130: the direction bit chooses between the two writes. -/
theorem execIo_completes (a : BitVec 4) (p : BitVec 3) (d : BitVec 1) (s : State) :
    Completes (.io a p d) s (execIo a p d s) := by
  obtain rfl | rfl := BitVec.eq_zero_or_eq_one d
  · exact completes_next (.regWritten (s.port p) (by simp [IsDestination]))
  · exact completes_next (.portWritten a p)

/-- A conditional jump, taken or not, sets `pc` only. -/
theorem condJump_completes (i : Instr) (taken : Bool) (d : Int) (s : State) :
    Completes i s (.next (if taken then s.jumpBy d else s.advance)) := by
  cases taken
  · exact completes_next (.pcOnly i (s.pc + 1))
  · exact completes_next (.pcOnly i (s.pc + d))

/-- Everything an instruction can do: one of the effects, or the fault; it is never refused. -/
theorem exec_cases (i : Instr) (s : State) : Completes i s (exec i s) := by
  cases i with
  | load a l => exact loadFrom_completes (absAddr l) s (by simp [IsDestination])
  | store a l => exact execStore_completes a l s
  | add a b c => exact completes_next (.regWritten _ (by simp [IsDestination]))
  | loadc a k => exact completes_next (.regWritten _ (by simp [IsDestination]))
  | sub a b c => exact completes_next (.regWritten _ (by simp [IsDestination]))
  | jmpz a l => exact condJump_completes _ (isZero (s.reg a)) (condDisp l) s
  | jmpn a l => exact condJump_completes _ (isNegative (s.reg a)) (condDisp l) s
  | jmp j => exact completes_next (.pcOnly _ (s.pc + jmpDisp j))
  | movr a b c => exact loadFrom_completes (movrAddr b c s) s (by simp [IsDestination])
  | reserved9 rest => exact completes_next (.reported _ (reservedWord 9 rest))
  | reserved10 rest => exact completes_next (.reported _ (reservedWord 10 rest))
  | reserved11 rest => exact completes_next (.reported _ (reservedWord 11 rest))
  | reserved12 rest => exact completes_next (.reported _ (reservedWord 12 rest))
  | reserved13 rest => exact completes_next (.reported _ (reservedWord 13 rest))
  | io a p d => exact execIo_completes a p d s
  | endOp => exact completes_next .unchanged

theorem effect_of_exec_next {i : Instr} {s t : State} (h : exec i s = .next t) : Effect s i t := by
  obtain ⟨t', he, heff⟩ | ⟨_, he⟩ := exec_cases i s <;> rw [h] at he
  · exact Host.Outcome.next.inj he ▸ heff
  · nomatch he

theorem exec_ne_refused (i : Instr) (s : State) (r : Refusal) : exec i s ≠ .refused r := by
  obtain ⟨_, he, -⟩ | ⟨_, he⟩ := exec_cases i s <;> simp [he]

/-- The memory of a next state: what it was, or STORE's one write of it. -/
theorem exec_mem_cases {i : Instr} {s t : State} (h : exec i s = .next t) :
    t.mem = s.mem ∨ ∃ a l, i = .store a l ∧ s.mem.write (absAddr l) (s.reg a) = some t.mem := by
  cases effect_of_exec_next h with
  | memWritten hm => exact .inr ⟨_, _, rfl, hm⟩
  | _ => exact .inl rfl

/-- The memory after a step: what it was, or one write of a word. -/
theorem step_mem_cases {s t : State} (h : step s = .next t) :
    t.mem = s.mem ∨ ∃ addr v, s.mem.write addr v = some t.mem := by
  obtain ⟨-, he⟩ | ⟨w, -, he⟩ := step_cases s <;> rw [he] at h
  · cases h
    exact .inl rfl
  · obtain hm | ⟨a, l, -, hm⟩ := exec_mem_cases h
    · exact .inl hm
    · exact .inr ⟨_, _, hm⟩

/-! ## R32: the canonical form of memory -/

/-- Settles O15: memory stays as it is or has one word written, and a write keeps the form (`Memory.write_wf`). -/
theorem stepKeepsWellFormed : Obligations.StepKeepsWellFormed := by
  intro s t hwf h
  obtain hm | ⟨addr, v, hm⟩ := step_mem_cases h
  · rwa [State.wf, hm]
  · exact Memory.write_wf hwf hm

/-- Settles O14: the cells of an image are canonical, by induction over the image (`cellsOfImage_wf`). -/
theorem loadWellFormed : Obligations.LoadWellFormed := fun img => Memory.ofImage_wf img

/-- Settles O13: the reset state is the load of the empty image. -/
theorem resetWellFormed : Obligations.ResetWellFormed := loadWellFormed []

/-! ## R20: the writers of memory, ports and registers -/

/-- Settles O33: a write keeps the length and every other address (`Memory.write_len`, `Memory.read_write_ne`). -/
theorem memoryChangesOnlyByStore : Obligations.MemoryChangesOnlyByStore := by
  refine ⟨fun s t h => ?_, fun i s t addr h hne => ?_⟩
  · obtain hm | ⟨addr, v, hm⟩ := step_mem_cases h
    · rw [hm]
    · exact Memory.write_len hm
  · obtain hm | ⟨a, l, rfl, hm⟩ := exec_mem_cases h
    · exact absurd (by rw [hm]) hne
    · exact ⟨a, l, rfl, not_imp_comm.1 (Memory.read_write_ne hm) hne⟩

/-- Settles O34: the one effect on ports leaves every other port alone. -/
theorem onlyOutboundIoWritesPorts : Obligations.OnlyOutboundIoWritesPorts := by
  intro i s t k h hne
  cases effect_of_exec_next h with
  | portWritten a p =>
    obtain rfl : k = p := not_imp_comm.1 (State.setPort_port_ne s p k (s.reg a)) hne
    exact ⟨a, rfl⟩
  | _ => exact absurd rfl hne

/-- Settles O35: the one effect on registers writes the destination and leaves every other register alone. -/
theorem registerWriters : Obligations.RegisterWriters := by
  intro i s t r h hne
  cases effect_of_exec_next h with
  | @regWritten _ a v hdest =>
    obtain rfl : r = a := not_imp_comm.1 (State.setReg_reg_ne s a r v) hne
    exact hdest
  | _ => exact absurd rfl hne

/-! ## The loop, one iteration at a time (R93) -/

theorem stepLoop_of_fetch_none {s : State} (n : Nat) (h : fetch s = none) : stepLoop (n + 1) s = .returned s := by
  rw [stepLoop, h]

theorem stepLoop_of_end {s : State} {w : Word} (n : Nat) (h : fetch s = some w) (hend : decode w = .endOp) :
    stepLoop (n + 1) s = .returned s := by
  simp only [stepLoop, h, hend]

theorem stepLoop_of_next {s t : State} {w : Word} (n : Nat) (h : fetch s = some w) (hend : decode w ≠ .endOp)
    (hx : exec (decode w) s = .next t) : stepLoop (n + 1) s = stepLoop n t := by
  simp only [stepLoop, h, hx]

theorem stepLoop_of_fault {s : State} {w : Word} {r : Fault} (n : Nat) (h : fetch s = some w)
    (hend : decode w ≠ .endOp) (hx : exec (decode w) s = .fault r) : stepLoop (n + 1) s = .faulted r s := by
  simp only [stepLoop, h, hx]

/-! ## R36: reports are never read

A state with earlier reports put before its own runs as the state itself does: `prependReports` commutes with every
instruction. -/

/-- `s` with the reports `rs` standing before its own. -/
def prependReports (rs : List Report) (s : State) : State := { s with reports := rs ++ s.reports }

/-- `prependReports` on the next state of an outcome. -/
def outcomePrepend (rs : List Report) : Host.Outcome State Fault Refusal → Host.Outcome State Fault Refusal
  | .next t => .next (prependReports rs t)
  | .fault r => .fault r
  | .refused r => .refused r

@[simp] theorem prependReports_reg (rs : List Report) (s : State) (r : RegIdx) :
    (prependReports rs s).reg r = s.reg r := rfl

@[simp] theorem prependReports_mem (rs : List Report) (s : State) : (prependReports rs s).mem = s.mem := rfl

@[simp] theorem fetch_prependReports (rs : List Report) (s : State) : fetch (prependReports rs s) = fetch s := rfl

theorem loadFrom_prependReports (rs : List Report) (a : RegIdx) (addr : Int) (s : State) :
    loadFrom a addr (prependReports rs s) = outcomePrepend rs (loadFrom a addr s) := by
  simp only [loadFrom, prependReports_mem]
  cases s.mem.read addr <;> rfl

theorem storeTo_prependReports (rs : List Report) (a : RegIdx) (addr : Int) (s : State) :
    storeTo a addr (prependReports rs s) = outcomePrepend rs (storeTo a addr s) := by
  simp only [storeTo, prependReports_mem, prependReports_reg]
  cases s.mem.write addr (s.reg a) <;> rfl

/-- A report is appended behind the earlier ones. -/
theorem reservedStep_prependReports (rs : List Report) (op : BitVec 4) (rest : BitVec 12) (s : State) :
    reservedStep op rest (prependReports rs s) = outcomePrepend rs (reservedStep op rest s) := by
  simp [reservedStep, outcomePrepend, prependReports, State.report, State.advance, State.setPc]

theorem condJump_prependReports (rs : List Report) (taken : Bool) (d : Int) (s : State) :
    (if taken then (prependReports rs s).jumpBy d else (prependReports rs s).advance) =
      prependReports rs (if taken then s.jumpBy d else s.advance) := by
  cases taken <;> rfl

theorem execIo_prependReports (rs : List Report) (a : BitVec 4) (p : BitVec 3) (d : BitVec 1) (s : State) :
    execIo a p d (prependReports rs s) = outcomePrepend rs (execIo a p d s) := by
  obtain rfl | rfl := BitVec.eq_zero_or_eq_one d <;> rfl

/-- No instruction reads the reports. -/
theorem exec_prependReports (rs : List Report) (i : Instr) (s : State) :
    exec i (prependReports rs s) = outcomePrepend rs (exec i s) := by
  cases i with
  | load a l => exact loadFrom_prependReports rs a (absAddr l) s
  | store a l => exact storeTo_prependReports rs a (absAddr l) s
  | movr a b c => exact loadFrom_prependReports rs a (movrAddr b c s) s
  | jmpz a l => exact congrArg _ (condJump_prependReports rs (isZero (s.reg a)) (condDisp l) s)
  | jmpn a l => exact congrArg _ (condJump_prependReports rs (isNegative (s.reg a)) (condDisp l) s)
  | reserved9 rest => exact reservedStep_prependReports rs 9 rest s
  | reserved10 rest => exact reservedStep_prependReports rs 10 rest s
  | reserved11 rest => exact reservedStep_prependReports rs 11 rest s
  | reserved12 rest => exact reservedStep_prependReports rs 12 rest s
  | reserved13 rest => exact reservedStep_prependReports rs 13 rest s
  | io a p d => exact execIo_prependReports rs a p d s
  | add _ _ _ | loadc _ _ | sub _ _ _ | jmp _ | endOp => rfl

/-- Two calls end in the same way, the second with the reports `rs` standing before those of the first. -/
def SameButReports (rs : List Report) : CallResult → CallResult → Prop
  | .returned t, .returned u => u = prependReports rs t
  | .faulted r t, .faulted r' u => r' = r ∧ u = prependReports rs t
  | _, _ => False

/-- A call reads no reports, by induction over the budget with one case for each way an iteration goes. -/
theorem stepLoop_prependReports (n : Nat) (s : State) (rs : List Report) :
    SameButReports rs (stepLoop n s) (stepLoop n (prependReports rs s)) := by
  induction n generalizing s with
  | zero => rfl
  | succ n ih =>
    cases hf : fetch s with
    | none =>
      rw [stepLoop_of_fetch_none n hf, stepLoop_of_fetch_none n ((fetch_prependReports rs s).trans hf)]
      rfl
    | some w =>
      have hf' := (fetch_prependReports rs s).trans hf
      have hcomm := exec_prependReports rs (decode w) s
      by_cases hend : decode w = .endOp
      · rw [stepLoop_of_end n hf hend, stepLoop_of_end n hf' hend]
        rfl
      cases hx : exec (decode w) s with
      | next t =>
        rw [stepLoop_of_next n hf hend hx, stepLoop_of_next n hf' hend (hcomm.trans (congrArg _ hx))]
        exact ih t
      | fault r =>
        rw [stepLoop_of_fault n hf hend hx, stepLoop_of_fault n hf' hend (hcomm.trans (congrArg _ hx))]
        exact ⟨rfl, rfl⟩
      | refused r => exact absurd hx (exec_ne_refused _ _ r)

/-- Settles O39: the statement of `stepLoop_prependReports` written out. -/
theorem reportsNeverRead : Obligations.ReportsNeverRead := by
  intro n s rs
  have h := stepLoop_prependReports n s rs
  unfold prependReports at h
  revert h
  cases stepLoop n s <;> cases stepLoop n { s with reports := rs ++ s.reports } <;> exact id

end Sys2Proof.StateChange

namespace Sys2Proof.MemoryAccess

open Sys2Proof.Machine

/-! ## R43, R44, R55: addresses outside memory, and a store before a fetch -/

/-- R67, R105, R106: the address of LOAD and STORE, by number. -/
theorem absAddr_eq (l : BitVec 8) : absAddr l = l.toNat := rfl

/-- R67, R108: MOVR's address with its offset read by number. -/
theorem movrAddr_eq (b : RegIdx) (c : BitVec 4) (s : State) :
    movrAddr b c s = (s.reg b).toNat + (if c.toNat < 8 then (c.toNat : Int) else c.toNat - 16) := by
  have hc : toSigned c = if c.toNat < 8 then (c.toNat : Int) else c.toNat - 16 := by
    rw [toSigned_eq_toInt, BitVec.toInt_eq_toNat_cond]
    split <;> split <;> omega
  rw [movrAddr, hc, toUnsigned]

/-- Settles O21: the three instructions are a load or a store of a computed address (`loadFrom_outside`,
`storeTo_outside`). -/
theorem outsideMemoryFaults : Obligations.OutsideMemoryFaults := by
  refine ⟨fun a l s hl => ?_, fun a b c s addr haddr hout => ?_⟩
  · have hnot : ¬ s.mem.inBounds (absAddr l) := fun ⟨_, hlt⟩ => by rw [absAddr_eq] at hlt; omega
    exact ⟨loadFrom_outside hnot, storeTo_outside hnot⟩
  · obtain rfl : addr = movrAddr b c s := haddr.trans (movrAddr_eq b c s).symm
    exact loadFrom_outside fun ⟨h0, hlt⟩ => by omega

/-- R106: a STORE that completes wrote its word and advanced. -/
theorem execStore_eq_next {a : BitVec 4} {l : BitVec 8} {s t : State} (h : exec (.store a l) s = .next t) :
    ∃ m, s.mem.write (absAddr l) (s.reg a) = some m ∧ t = ({ s with mem := m } : State).advance := by
  obtain ⟨m, hm, he⟩ | ⟨-, he⟩ := storeTo_cases a (absAddr l) s
  · exact ⟨m, hm, Host.Outcome.next.inj (h.symm.trans he)⟩
  · nomatch h.symm.trans he

/-- Settles O40: the fetch after the store reads the word just written (`Memory.read_write_same`). -/
theorem storeSeenByNextFetch : Obligations.StoreSeenByNextFetch := by
  intro s t w a l hwf hf hd hstep hnext
  rw [step_of_fetch_some hf, hd] at hstep
  obtain ⟨m, hm, rfl⟩ := execStore_eq_next hstep
  have hread : m.read (s.pc + 1) = some (s.reg a) := by
    rw [← hnext, ← absAddr_eq]
    exact Memory.read_write_same hwf hm
  exact ⟨hread, step_of_fetch_some hread⟩

end Sys2Proof.MemoryAccess

namespace Sys2Proof.WordStream

open Sys2Proof.Machine Sys2Proof.Asm

/-! ## R50, R190: assembled code, loaded and fetched -/

/-- R74: the encoder gives every operation an assigned opcode, whatever its operands. -/
theorem decode_encodeOp_assigned (op : Operation) : (decode (encodeOp op)).assigned = true := by
  cases op with
  | load a n => rw [encodeOp, decode_op0 (field_packRL 0 a n).1]; rfl
  | store a n => rw [encodeOp, decode_op1 (field_packRL 1 a n).1]; rfl
  | add a b c => rw [encodeOp, decode_op2 (field_packRRR 2 a b c).1]; rfl
  | loadc a n => rw [encodeOp, decode_op3 (field_packRL 3 a n).1]; rfl
  | sub a b c => rw [encodeOp, decode_op4 (field_packRRR 4 a b c).1]; rfl
  | jmpz a n => rw [encodeOp, decode_op5 (field_packRL 5 a n).1]; rfl
  | jmpn a n => rw [encodeOp, decode_op6 (field_packRL 6 a n).1]; rfl
  | jmp n => rw [encodeOp, decode_op7 (field_packJ 7 n).1]; rfl
  | movr a b n => rw [encodeOp, decode_op8 (field_packRRR 8 a b n).1]; rfl
  | io a p d => rw [encodeOp, decode_op14 (field_packIO a (ioField p d)).1]; rfl
  | endOp => rfl

/-- R170: the code words of a nonempty Text Segment, taken apart. -/
theorem codeWords_cons_eq_ok {lt : LabelTable} {i : Nat} {e : TextEntry} {es : List TextEntry} {ws : List Word}
    (h : codeWords lt i (e :: es) = .ok ws) :
    ∃ op ws', resolve lt i e = .ok op ∧ codeWords lt (i + 1) es = .ok ws' ∧ ws = encodeOp op :: ws' := by
  rw [codeWords] at h
  split at h
  · next op hop =>
    split at h
    · next ws' hws => exact ⟨op, ws', hop, hws, (Except.ok.inj h).symm⟩
    · nomatch h
  · nomatch h

/-- R170: the code word of each entry is the encoding of the operation it resolves to at its own address. -/
theorem codeWords_getElem? {lt : LabelTable} {k i : Nat} {e : TextEntry} {es : List TextEntry} {ws : List Word}
    (h : codeWords lt k es = .ok ws) (he : es[i]? = some e) :
    ∃ op, resolve lt (k + i) e = .ok op ∧ ws[i]? = some (encodeOp op) := by
  induction es generalizing k i ws with
  | nil => simp at he
  | cons e' es ih =>
    obtain ⟨op, ws', hop, hws, rfl⟩ := codeWords_cons_eq_ok h
    cases i with
    | zero =>
      obtain rfl : e' = e := by simpa using he
      exact ⟨op, hop, rfl⟩
    | succ i =>
      obtain ⟨op', hop', hw⟩ := ih hws (by simpa using he)
      exact ⟨op', by rwa [Nat.add_right_comm] at hop', by simpa using hw⟩

/-- R190: the output of an assembly that succeeds is the code, then the Data Segment in unified mode. -/
theorem assembleFile_eq_ok {lines : List Text} {unified : Bool} {words : List Word} {st : Pass1}
    (h : assembleFile lines unified = .ok words) (hst : pass1 lines = .ok st) :
    ∃ code, codeWords (st.labels unified) 0 st.ts = .ok code ∧ words = code ++ (if unified then st.ds else []) := by
  simp only [assembleFile, hst, assemble] at h
  split at h
  · next code hcode => exact ⟨code, hcode, (Except.ok.inj h).symm⟩
  · nomatch h

/-- R50, R220: after a load, the word fetched at `pc = k` is word `k` of the image. -/
theorem fetch_load (img : List Word) (k : Nat) : fetch { State.load img with pc := k } = img[k]? :=
  Memory.read_ofImage img k

/-- Settles O59: the code stands first in the output, so its word `i` is the image's word `i` (`fetch_load`). -/
theorem assembledCodeIsFetched : Obligations.AssembledCodeIsFetched := by
  intro lines unified words st hwords hst i e he
  obtain ⟨code, hcode, rfl⟩ := assembleFile_eq_ok hwords hst
  obtain ⟨op, hop, hw⟩ := codeWords_getElem? hcode he
  rw [Nat.zero_add] at hop
  have hlt : i < code.length := (List.getElem?_eq_some_iff.1 hw).1
  exact ⟨op, hop, by rw [fetch_load, List.getElem?_append_left hlt, hw], decode_encodeOp_assigned op⟩

/-! ## R51, R52: the text of a word and of an image

The text of the low `k` bits of a word is bit `k - 1` and then the text of the low `k - 1` bits, so the loader's reading of
it goes by induction on `k`. -/

/-- The characters of the `k` low bits of a word, most significant first. -/
def lowBitsText (w : Word) : Nat → Text
  | 0 => []
  | k + 1 => (if w.getLsbD k then '1' else '0') :: lowBitsText w k

theorem wordText_eq_lowBitsText (w : Word) : wordText w = lowBitsText w 16 := rfl

theorem bitsValue_bit_cons (b : Bool) (cs : Text) (acc : Nat) :
    bitsValue ((if b then '1' else '0') :: cs) acc = bitsValue cs (2 * acc + b.toNat) := by
  cases b <;> simp [bitsValue]

/-- The low bits of a word are read back as its remainder, below the number read so far. -/
theorem bitsValue_lowBitsText (w : Word) (k acc : Nat) :
    bitsValue (lowBitsText w k) acc = some (acc * 2 ^ k + w.toNat % 2 ^ k) := by
  induction k generalizing acc with
  | zero => simp [lowBitsText, bitsValue, Nat.mod_one]
  | succ k ih =>
    have hmod : w.toNat % 2 ^ (k + 1) = w.toNat % 2 ^ k + 2 ^ k * (w.getLsbD k).toNat := by
      rw [Nat.mod_pow_succ, BitVec.getLsbD, Nat.toNat_testBit]
    rw [lowBitsText, bitsValue_bit_cons, ih, hmod]
    congr 1
    ring

theorem wordText_length (w : Word) : (wordText w).length = 16 := by
  simp [wordText]

/-- R52, D12: the character at position `k` is bit `15 - k`. -/
theorem wordText_getElem? (w : Word) {k : Nat} (hk : k < 16) :
    (wordText w)[k]? = some (if w.getLsbD (15 - k) then '1' else '0') := by
  simp [wordText, hk]

/-- A character other than `0` and `1` makes a sequence no number. -/
theorem bitsValue_eq_none {l : Text} {c : Char} (hc : c ∈ l) (h0 : c ≠ '0') (h1 : c ≠ '1') (acc : Nat) :
    bitsValue l acc = none := by
  induction l generalizing acc with
  | nil => simp at hc
  | cons d l ih =>
    rw [bitsValue]
    obtain rfl | hc := List.mem_cons.1 hc
    · rw [if_neg h0, if_neg h1]
    · simp only [ih hc, ite_self]

/-! ### The loader, one line at a time -/

theorem loaderLine_of_length_ne {l : Text} (h : l.length ≠ 16) : loaderLine l = .skipped := if_pos h

theorem loaderLine_wordText (w : Word) : loaderLine (wordText w) = .word w := by
  have hbits : bitsValue (wordText w) 0 = some w.toNat := by
    rw [wordText_eq_lowBitsText, bitsValue_lowBitsText, Nat.zero_mul, Nat.zero_add, Nat.mod_eq_of_lt w.isLt]
  simp [loaderLine, wordText_length, hbits]

theorem loaderLine_of_other_char {l : Text} {c : Char} (hlen : l.length = 16) (hc : c ∈ l) (h0 : c ≠ '0')
    (h1 : c ≠ '1') : loaderLine l = .refused := by
  simp [loaderLine, hlen, bitsValue_eq_none hc h0 h1]

theorem loadText_map_wordText (ws : List Word) : loadText (ws.map wordText) = some ws := by
  induction ws with
  | nil => rfl
  | cons w ws ih => simp [loadText, loaderLine_wordText, ih]

theorem loadText_filter_length (ls : List Text) :
    loadText ls = loadText (ls.filter (fun l => decide (l.length = 16))) := by
  induction ls with
  | nil => rfl
  | cons l ls ih =>
    by_cases h : l.length = 16
    · rw [List.filter_cons_of_pos (by simpa using h), loadText, loadText, ih]
    · rw [List.filter_cons_of_neg (by simpa using h), loadText, loaderLine_of_length_ne h, ih]

/-- One refused line refuses the text. -/
theorem loadText_eq_none {ls : List Text} {l : Text} (hl : l ∈ ls) (h : loaderLine l = .refused) :
    loadText ls = none := by
  induction ls with
  | nil => simp at hl
  | cons l' ls ih =>
    rw [loadText]
    obtain rfl | hl := List.mem_cons.1 hl
    · rw [h]
    · rw [ih hl]
      cases loaderLine l' <;> rfl

/-- Settles O60: one lemma of this section for each clause. -/
theorem loaderReadsBack : Obligations.LoaderReadsBack :=
  ⟨loadText_map_wordText, fun w _ => wordText_getElem? w, wordText_length, loadText_filter_length,
    fun _ _ hl hlen ⟨_, hc, h0, h1⟩ => loadText_eq_none hl (loaderLine_of_other_char hlen hc h0 h1)⟩

end Sys2Proof.WordStream

namespace Sys2Proof.Encoding

open Sys2Proof.Machine

/-! ## R61: a field by number

A field is a quotient and remainder of the word's number, so the fields of a format, side by side, determine the word. The
packed words are known by their fields (`field_packRL` and the like), and both directions of the encoding read off that. -/

theorem field_eq_ofNat (w : Word) (off width : Nat) :
    field w off width = BitVec.ofNat width (w.toNat / 2 ^ (16 - off - width)) := by
  rw [field, BitVec.extractLsb', Nat.shiftRight_eq_div_pow]

theorem field_toNat (w : Word) (off width : Nat) :
    (field w off width).toNat = w.toNat / 2 ^ (16 - off - width) % 2 ^ width := by
  rw [field_eq_ofNat, BitVec.toNat_ofNat]

/-- Settles O2. -/
theorem fieldExtraction : Obligations.FieldExtraction := fun w off width _ _ => field_toNat w off width

/-- Format RL: opcode, register and 8-bit field. -/
theorem toNat_eq_fieldsRL (w : Word) :
    w.toNat = (field w 0 4).toNat * 4096 + (field w 4 4).toNat * 256 + (field w 8 8).toNat := by
  simp only [field_toNat]
  omega

/-- Format RRR: opcode and three 4-bit fields. -/
theorem toNat_eq_fieldsRRR (w : Word) :
    w.toNat = (field w 0 4).toNat * 4096 + (field w 4 4).toNat * 256 + (field w 8 4).toNat * 16 +
      (field w 12 4).toNat := by
  simp only [field_toNat]
  omega

/-- Format J: opcode and 12-bit field. -/
theorem toNat_eq_fieldsJ (w : Word) : w.toNat = (field w 0 4).toNat * 4096 + (field w 4 12).toNat := by
  simp only [field_toNat]
  omega

/-- Format IO: opcode, register, port, direction and the unused bits. -/
theorem toNat_eq_fieldsIO (w : Word) :
    w.toNat = (field w 0 4).toNat * 4096 + (field w 4 4).toNat * 256 + (field w 8 3).toNat * 32 +
      (field w 11 1).toNat * 16 + (field w 12 4).toNat := by
  simp only [field_toNat]
  omega

/-! ## R63, R71: an integer that fits is read back -/

theorem toUnsigned_trunc {W : Nat} {n : Int} (h : fitsUnsigned n W = true) : toUnsigned (trunc W n) = n := by
  simp only [fitsUnsigned, Bool.and_eq_true, decide_eq_true_eq] at h
  rw [toUnsigned, trunc_toNat, Int.emod_eq_of_lt h.1 h.2]

theorem toSigned_trunc {W : Nat} {n : Int} (hW : 1 ≤ W) (h : fitsSigned n W = true) : toSigned (trunc W n) = n := by
  simp only [fitsSigned, Bool.and_eq_true, decide_eq_true_eq] at h
  rw [toSigned_eq_toInt, trunc, BitVec.toInt_ofInt_eq_self hW h.1 h.2]

/-- Settles O3. -/
theorem signedFieldReadsBack : Obligations.SignedFieldReadsBack := fun _ _ hW h => toSigned_trunc hW h

/-! ## R72: the decoder on every word -/

/-- Settles O4: each field is the remainder of a quotient of the word's number (`field_eq_ofNat`), and the opcode is the
quotient by 4096 itself, one of 16. -/
theorem decoderTotal : Obligations.DecoderTotal := by
  rintro w n rfl
  have hlt : w.toNat / 4096 < 16 := by omega
  have hop : (field w 0 4).toNat = w.toNat / 4096 := (field_toNat w 0 4).trans (Nat.mod_eq_of_lt hlt)
  simp only [decode, hop]
  generalize w.toNat / 4096 = op at hlt
  simp only [field_eq_ofNat]
  interval_cases op <;> simp

/-! ## R70: the number of each packed word -/

theorem packRL_toNat (op a n : Int) :
    ((packRL op a n).toNat : Int) = op % 16 * 4096 + a % 16 * 256 + n % 256 := by
  obtain ⟨hop, ha, hn⟩ := field_packRL op a n
  rw [toNat_eq_fieldsRL, hop, ha, hn]
  push_cast [trunc_toNat]
  rfl

theorem packRRR_toNat (op a b c : Int) :
    ((packRRR op a b c).toNat : Int) = op % 16 * 4096 + a % 16 * 256 + b % 16 * 16 + c % 16 := by
  obtain ⟨hop, ha, hb, hc⟩ := field_packRRR op a b c
  rw [toNat_eq_fieldsRRR, hop, ha, hb, hc]
  push_cast [trunc_toNat]
  rfl

theorem packJ_toNat (op n : Int) : ((packJ op n).toNat : Int) = op % 16 * 4096 + n % 4096 := by
  obtain ⟨hop, hn⟩ := field_packJ op n
  rw [toNat_eq_fieldsJ, hop, hn]
  push_cast [trunc_toNat]
  rfl

/-- R68: format IO is format RRR with the last field 0. -/
theorem packIO_eq_packRRR (a f : Int) : packIO a f = packRRR 14 a f 0 := by
  simp [packIO, packRRR, trunc]

theorem packIO_toNat (a f : Int) :
    ((packIO a f).toNat : Int) = 14 * 4096 + a % 16 * 256 + (trunc 4 f).toNat * 16 := by
  rw [packIO_eq_packRRR, packRRR_toNat, trunc_toNat]
  omega

/-- R65: the combined field of IO, for indices of any size and sign. -/
theorem trunc_ioField_toNat (p d : Int) :
    (trunc 4 (ioField p d)).toNat = (2 * p % 16).toNat ||| (d % 16).toNat := by
  rw [ioField, trunc_intOr, BitVec.toNat_or]
  rfl

/-- Port index 0 leaves the direction index as the whole combined field. -/
theorem trunc_ioField_zero (n : Int) : trunc 4 (ioField 0 n) = trunc 4 n := by
  rw [ioField, trunc_intOr, Int.mul_zero]
  exact BitVec.zero_or

/-- Settles O5: each operation's word is that of its format. -/
theorem encoderPacks : Obligations.EncoderPacks := fun a b c n p d =>
  ⟨packRL_toNat 0 a n, packRL_toNat 1 a n, packRRR_toNat 2 a b c, packRL_toNat 3 a n, packRRR_toNat 4 a b c,
    packRL_toNat 5 a n, packRL_toNat 6 a n, packJ_toNat 7 n, packRRR_toNat 8 a b n,
    by rw [encodeOp, packIO_toNat, trunc_ioField_toNat],
    by rw [encodeOp, packIO_toNat, trunc_ioField_zero, trunc_toNat]; rfl, rfl⟩

/-! ## R71, R73 (a): decoding what was encoded -/

/-- Settles O6: one lemma of `Laws.RoundTrip` for each constructor. -/
theorem decodeOfEncode : Obligations.DecodeOfEncode
  | .load a l => Laws.RoundTrip.load a l
  | .store a l => Laws.RoundTrip.store a l
  | .add a b c => Laws.RoundTrip.add a b c
  | .loadc a k => Laws.RoundTrip.loadc a k
  | .sub a b c => Laws.RoundTrip.sub a b c
  | .jmpz a l => Laws.RoundTrip.jmpz a l
  | .jmpn a l => Laws.RoundTrip.jmpn a l
  | .jmp j => Laws.RoundTrip.jmp j
  | .movr a b c => Laws.RoundTrip.movr a b c
  | .reserved9 rest => Laws.RoundTrip.reserved9 rest
  | .reserved10 rest => Laws.RoundTrip.reserved10 rest
  | .reserved11 rest => Laws.RoundTrip.reserved11 rest
  | .reserved12 rest => Laws.RoundTrip.reserved12 rest
  | .reserved13 rest => Laws.RoundTrip.reserved13 rest
  | .io a p d => Laws.RoundTrip.io a p d
  | .endOp => Laws.RoundTrip.endOp

/-- R62: the instruction of an operation, each operand cut to its field; the two fields of IO are the parts of its combined
field (R65). -/
def cutToFields : Operation → Instr
  | .load a n => .load (trunc 4 a) (trunc 8 n)
  | .store a n => .store (trunc 4 a) (trunc 8 n)
  | .add a b c => .add (trunc 4 a) (trunc 4 b) (trunc 4 c)
  | .loadc a n => .loadc (trunc 4 a) (trunc 8 n)
  | .sub a b c => .sub (trunc 4 a) (trunc 4 b) (trunc 4 c)
  | .jmpz a n => .jmpz (trunc 4 a) (trunc 8 n)
  | .jmpn a n => .jmpn (trunc 4 a) (trunc 8 n)
  | .jmp n => .jmp (trunc 12 n)
  | .movr a b n => .movr (trunc 4 a) (trunc 4 b) (trunc 4 n)
  | .io a p d =>
    .io (trunc 4 a) ((trunc 4 (ioField p d)).extractLsb' 1 3) ((trunc 4 (ioField p d)).extractLsb' 0 1)
  | .endOp => .endOp

/-- The decoder on the word of any operation, operands that do not fit included. -/
theorem decode_encodeOp (op : Operation) : decode (encodeOp op) = cutToFields op := by
  cases op with
  | load a n =>
    obtain ⟨hop, ha, hn⟩ := field_packRL 0 a n
    rw [encodeOp, decode_op0 hop, ha, hn, cutToFields]
  | store a n =>
    obtain ⟨hop, ha, hn⟩ := field_packRL 1 a n
    rw [encodeOp, decode_op1 hop, ha, hn, cutToFields]
  | add a b c =>
    obtain ⟨hop, ha, hb, hc⟩ := field_packRRR 2 a b c
    rw [encodeOp, decode_op2 hop, ha, hb, hc, cutToFields]
  | loadc a n =>
    obtain ⟨hop, ha, hn⟩ := field_packRL 3 a n
    rw [encodeOp, decode_op3 hop, ha, hn, cutToFields]
  | sub a b c =>
    obtain ⟨hop, ha, hb, hc⟩ := field_packRRR 4 a b c
    rw [encodeOp, decode_op4 hop, ha, hb, hc, cutToFields]
  | jmpz a n =>
    obtain ⟨hop, ha, hn⟩ := field_packRL 5 a n
    rw [encodeOp, decode_op5 hop, ha, hn, cutToFields]
  | jmpn a n =>
    obtain ⟨hop, ha, hn⟩ := field_packRL 6 a n
    rw [encodeOp, decode_op6 hop, ha, hn, cutToFields]
  | jmp n =>
    obtain ⟨hop, hn⟩ := field_packJ 7 n
    rw [encodeOp, decode_op7 hop, hn, cutToFields]
  | movr a b n =>
    obtain ⟨hop, ha, hb, hn⟩ := field_packRRR 8 a b n
    rw [encodeOp, decode_op8 hop, ha, hb, hn, cutToFields]
  | io a p d =>
    obtain ⟨hop, ha, hp, hd, -⟩ := field_packIO a (ioField p d)
    rw [encodeOp, decode_op14 hop, ha, hp, hd, cutToFields]
  | endOp => rfl

/-- R65: the parts of the combined field of indices that fit are the indices. -/
theorem ioField_parts_of_fits {p d : Int} (hp : fitsUnsigned p 3 = true) (hd : fitsUnsigned d 1 = true) :
    (((trunc 4 (ioField p d)).extractLsb' 1 3).toNat : Int) = p ∧
      (((trunc 4 (ioField p d)).extractLsb' 0 1).toNat : Int) = d := by
  obtain ⟨ep, ed⟩ := ioField_parts (trunc 3 p) (trunc 1 d)
  have hp' : ((trunc 3 p).toNat : Int) = p := toUnsigned_trunc hp
  have hd' : ((trunc 1 d).toNat : Int) = d := toUnsigned_trunc hd
  rw [hp', hd'] at ep ed
  rw [ep, ed]
  exact ⟨hp', hd'⟩

/-- R67, R71: each field of operands that fit, read by its signedness, is the operand. -/
theorem readBack_cutToFields {op : Operation} (h : op.fits = true) : readBack (cutToFields op) = some op := by
  cases op with
  | load a n | store a n =>
    obtain ⟨ha, hn⟩ := Bool.and_eq_true_iff.1 h
    rw [cutToFields, readBack, toUnsigned_trunc ha, toUnsigned_trunc hn]
  | add a b c | sub a b c =>
    obtain ⟨hab, hc⟩ := Bool.and_eq_true_iff.1 h
    obtain ⟨ha, hb⟩ := Bool.and_eq_true_iff.1 hab
    rw [cutToFields, readBack, toUnsigned_trunc ha, toUnsigned_trunc hb, toUnsigned_trunc hc]
  | loadc a n | jmpz a n | jmpn a n =>
    obtain ⟨ha, hn⟩ := Bool.and_eq_true_iff.1 h
    rw [cutToFields, readBack, toUnsigned_trunc ha, toSigned_trunc (by decide) hn]
  | jmp n => rw [cutToFields, readBack, toSigned_trunc (by decide) h]
  | movr a b n =>
    obtain ⟨hab, hn⟩ := Bool.and_eq_true_iff.1 h
    obtain ⟨ha, hb⟩ := Bool.and_eq_true_iff.1 hab
    rw [cutToFields, readBack, toUnsigned_trunc ha, toUnsigned_trunc hb, toSigned_trunc (by decide) hn]
  | io a p d =>
    obtain ⟨hap, hd⟩ := Bool.and_eq_true_iff.1 h
    obtain ⟨ha, hp⟩ := Bool.and_eq_true_iff.1 hap
    obtain ⟨ep, ed⟩ := ioField_parts_of_fits hp hd
    rw [cutToFields, readBack, toUnsigned_trunc ha, ep, ed]
  | endOp => rfl

/-- Settles O8: the decoder gives the operands cut to their fields, and the cut loses nothing of one that fits. -/
theorem fittingOperandsReadBack : Obligations.FittingOperandsReadBack := fun op h =>
  (congrArg readBack (decode_encodeOp op)).trans (readBack_cutToFields h)

/-! ## R73 (b), (c): encoding what was decoded -/

/-- Packing the fields of a word again gives the word. -/
theorem packRL_fields {w : Word} {op : Int} (hop : field w 0 4 = trunc 4 op) :
    packRL op (field w 4 4).toNat (field w 8 8).toNat = w := by
  obtain ⟨h0, ha, hn⟩ := field_packRL op (field w 4 4).toNat (field w 8 8).toNat
  rw [trunc_natCast_toNat] at ha hn
  apply BitVec.eq_of_toNat_eq
  rw [toNat_eq_fieldsRL, toNat_eq_fieldsRL w, h0, ha, hn, hop]

theorem packRRR_fields {w : Word} {op : Int} (hop : field w 0 4 = trunc 4 op) :
    packRRR op (field w 4 4).toNat (field w 8 4).toNat (field w 12 4).toNat = w := by
  obtain ⟨h0, ha, hb, hc⟩ := field_packRRR op (field w 4 4).toNat (field w 8 4).toNat (field w 12 4).toNat
  rw [trunc_natCast_toNat] at ha hb hc
  apply BitVec.eq_of_toNat_eq
  rw [toNat_eq_fieldsRRR, toNat_eq_fieldsRRR w, h0, ha, hb, hc, hop]

theorem packJ_fields {w : Word} {op : Int} (hop : field w 0 4 = trunc 4 op) : packJ op (field w 4 12).toNat = w := by
  obtain ⟨h0, hn⟩ := field_packJ op (field w 4 12).toNat
  rw [trunc_natCast_toNat] at hn
  apply BitVec.eq_of_toNat_eq
  rw [toNat_eq_fieldsJ, toNat_eq_fieldsJ w, h0, hn, hop]

theorem packIO_fields {w : Word} (hop : field w 0 4 = 14) (hunused : field w 12 4 = 0) :
    packIO (field w 4 4).toNat (ioField (field w 8 3).toNat (field w 11 1).toNat) = w := by
  obtain ⟨h0, ha, hp, hd, hz⟩ := field_packIO (field w 4 4).toNat (ioField (field w 8 3).toNat (field w 11 1).toNat)
  obtain ⟨ep, ed⟩ := ioField_parts (field w 8 3) (field w 11 1)
  rw [trunc_natCast_toNat] at ha
  rw [ep] at hp
  rw [ed] at hd
  apply BitVec.eq_of_toNat_eq
  rw [toNat_eq_fieldsIO, toNat_eq_fieldsIO w, h0, ha, hp, hd, hz, hop, hunused]

theorem reservedWord_fields {w : Word} {op : BitVec 4} (hop : field w 0 4 = op) :
    reservedWord op (field w 4 12) = w := by
  obtain ⟨h0, hr⟩ := field_reservedWord op (field w 4 12)
  apply BitVec.eq_of_toNat_eq
  rw [toNat_eq_fieldsJ, toNat_eq_fieldsJ w, h0, hr, hop]

theorem eq_of_end_fields {w : Word} (hop : field w 0 4 = 15) (hunused : field w 4 12 = 0) : w = 0xF000 := by
  apply BitVec.eq_of_toNat_eq
  rw [toNat_eq_fieldsJ, hop, hunused]
  rfl

/-- R73 (b), by the opcode. -/
theorem encode_decode {w : Word} (hio : field w 0 4 = 14 → field w 12 4 = 0)
    (hend : field w 0 4 = 15 → field w 4 12 = 0) : encode (decode w) = w := by
  generalize hop : field w 0 4 = op at hio hend
  fin_cases op
  · exact (congrArg encode (decode_op0 hop)).trans (packRL_fields hop)
  · exact (congrArg encode (decode_op1 hop)).trans (packRL_fields hop)
  · exact (congrArg encode (decode_op2 hop)).trans (packRRR_fields hop)
  · exact (congrArg encode (decode_op3 hop)).trans (packRL_fields hop)
  · exact (congrArg encode (decode_op4 hop)).trans (packRRR_fields hop)
  · exact (congrArg encode (decode_op5 hop)).trans (packRL_fields hop)
  · exact (congrArg encode (decode_op6 hop)).trans (packRL_fields hop)
  · exact (congrArg encode (decode_op7 hop)).trans (packJ_fields hop)
  · exact (congrArg encode (decode_op8 hop)).trans (packRRR_fields hop)
  · exact (congrArg encode (decode_op9 hop)).trans (reservedWord_fields hop)
  · exact (congrArg encode (decode_op10 hop)).trans (reservedWord_fields hop)
  · exact (congrArg encode (decode_op11 hop)).trans (reservedWord_fields hop)
  · exact (congrArg encode (decode_op12 hop)).trans (reservedWord_fields hop)
  · exact (congrArg encode (decode_op13 hop)).trans (reservedWord_fields hop)
  · exact (congrArg encode (decode_op14 hop)).trans (packIO_fields hop (hio rfl))
  · exact (congrArg encode (decode_op15 hop)).trans (eq_of_end_fields hop (hend rfl)).symm

/-- R68: a field above the low 4 bits does not read them. -/
theorem field_append_low (y : BitVec 12) (u v : BitVec 4) {off width : Nat} (h : off + width ≤ 12) :
    field (y ++ u) off width = field (y ++ v) off width := by
  have hlow : 4 ≤ 16 - off - width := by omega
  rw [field, field, BitVec.extractLsb'_append_eq_of_le hlow, BitVec.extractLsb'_append_eq_of_le hlow]

/-- Settles O7: the words of END decode by their opcode alone, those of IO by their opcode and fields above the low 4
bits. -/
theorem encodeOfDecode : Obligations.EncodeOfDecode := by
  refine ⟨fun w hio hend => encode_decode hio hend, fun u v => ?_, fun x u v => ?_⟩
  · exact (decode_op15 (field_reservedWord 15 u).1).trans (decode_op15 (field_reservedWord 15 v).1).symm
  · have hop (t : BitVec 4) : field (0xE#4 ++ x ++ t) 0 4 = 14 :=
      (BitVec.extractLsb'_append_eq_of_le (by decide)).trans BitVec.extractLsb'_append_eq_left
    rw [decode_op14 (hop u), decode_op14 (hop v), field_append_low _ u v (by decide), field_append_low _ u v (by decide),
      field_append_low _ u v (by decide)]

/-! ## R66: sample words -/

/-- Settles O9, by the table of R72 at each word. -/
theorem sampleWordsDecode : Obligations.SampleWordsDecode := by
  unfold Obligations.SampleWordsDecode
  decide

/-! ## R75, R200: nothing is refused -/

/-- Settles O31: a step performs an instruction, which is never refused (`StateChange.exec_ne_refused`), or stays. -/
theorem nothingRefused : Obligations.NothingRefused := by
  refine ⟨StateChange.exec_ne_refused, fun s r => ?_⟩
  obtain ⟨-, he⟩ | ⟨w, -, he⟩ := step_cases s
  · simp [he]
  · exact he ▸ StateChange.exec_ne_refused _ s r

end Sys2Proof.Encoding

namespace Sys2Proof.CallLoop

open Sys2Proof.Machine Sys2Proof.StateChange

/-! ## R66: the opcode by number -/

/-- R66: the opcode that selects each instruction (the table of R72). -/
def opcode : Instr → Nat
  | .load _ _ => 0
  | .store _ _ => 1
  | .add _ _ _ => 2
  | .loadc _ _ => 3
  | .sub _ _ _ => 4
  | .jmpz _ _ => 5
  | .jmpn _ _ => 6
  | .jmp _ => 7
  | .movr _ _ _ => 8
  | .reserved9 _ => 9
  | .reserved10 _ => 10
  | .reserved11 _ => 11
  | .reserved12 _ => 12
  | .reserved13 _ => 13
  | .io _ _ _ => 14
  | .endOp => 15

theorem opcodeField_toNat (w : Word) : (field w 0 4).toNat = w.toNat / 4096 :=
  (Encoding.field_toNat w 0 4).trans (Nat.mod_eq_of_lt (by omega))

theorem opcodeField_eq_iff {w : Word} {op : BitVec 4} : field w 0 4 = op ↔ w.toNat / 4096 = op.toNat := by
  rw [← opcodeField_toNat]
  exact ⟨congrArg _, BitVec.eq_of_toNat_eq⟩

/-- The opcode of a decoded instruction is that of its word. -/
theorem opcode_of_decode {w : Word} {i : Instr} (h : decode w = i) : w.toNat / 4096 = opcode i := by
  subst h
  have hlt : w.toNat / 4096 < 16 := by omega
  simp only [decode, opcodeField_toNat]
  generalize w.toNat / 4096 = op at hlt
  interval_cases op <;> rfl

theorem decode_eq_endOp_iff {w : Word} : decode w = .endOp ↔ w.toNat / 4096 = 15 :=
  ⟨opcode_of_decode, fun h => decode_op15 (opcodeField_eq_iff.2 h)⟩

/-! ## R95: `pc` after an instruction -/

/-- R95: the `pc` that each instruction leaves when it completes; a taken jump adds its displacement alone (D1). -/
def nextPc (s : State) : Instr → Int
  | .jmpz a l => if s.reg a = 0 then s.pc + l.toInt else s.pc + 1
  | .jmpn a l => if (s.reg a).toInt < 0 then s.pc + l.toInt else s.pc + 1
  | .jmp j => s.pc + j.toInt
  | .endOp => s.pc
  | _ => s.pc + 1

theorem nextPc_of_sequential {s : State} {i : Instr} (hz : ∀ a l, i ≠ .jmpz a l) (hn : ∀ a l, i ≠ .jmpn a l)
    (hj : ∀ j, i ≠ .jmp j) (he : i ≠ .endOp) : nextPc s i = s.pc + 1 := by
  cases i with
  | jmpz a l => exact absurd rfl (hz a l)
  | jmpn a l => exact absurd rfl (hn a l)
  | jmp j => exact absurd rfl (hj j)
  | endOp => exact absurd rfl he
  | _ => rfl

theorem loadFrom_pc {a : RegIdx} {addr : Int} {s t : State} (h : loadFrom a addr s = .next t) : t.pc = s.pc + 1 := by
  obtain ⟨v, -, he⟩ | ⟨-, he⟩ := loadFrom_cases a addr s
  · exact Host.Outcome.next.inj (he.symm.trans h) ▸ rfl
  · nomatch he.symm.trans h

theorem storeTo_pc {a : RegIdx} {addr : Int} {s t : State} (h : storeTo a addr s = .next t) : t.pc = s.pc + 1 := by
  obtain ⟨m, -, he⟩ | ⟨-, he⟩ := storeTo_cases a addr s
  · exact Host.Outcome.next.inj (he.symm.trans h) ▸ rfl
  · nomatch he.symm.trans h

theorem condJump_pc (taken : Bool) (d : Int) (s : State) :
    (if taken then s.jumpBy d else s.advance).pc = if taken then s.pc + d else s.pc + 1 := by
  cases taken <;> rfl

theorem execIo_pc {a : BitVec 4} {p : BitVec 3} {d : BitVec 1} {s t : State} (h : execIo a p d s = .next t) :
    t.pc = s.pc + 1 := by
  obtain rfl | rfl := BitVec.eq_zero_or_eq_one d <;> exact Host.Outcome.next.inj h ▸ rfl

/-- R95: the `pc` of a next state, one case for each instruction. -/
theorem exec_pc {i : Instr} {s t : State} (h : exec i s = .next t) : t.pc = nextPc s i := by
  cases i with
  | load a l => exact loadFrom_pc h
  | store a l => exact storeTo_pc h
  | movr a b c => exact loadFrom_pc h
  | io a p d => exact execIo_pc h
  | jmpz a l =>
    rw [← Host.Outcome.next.inj h, condJump_pc]
    simp [nextPc, isZero, condDisp, toSigned_eq_toInt]
  | jmpn a l =>
    rw [← Host.Outcome.next.inj h, condJump_pc]
    simp [nextPc, isNegative, condDisp, toSigned_eq_toInt]
  | jmp j =>
    rw [← Host.Outcome.next.inj h, State.jumpBy_pc, jmpDisp, toSigned_eq_toInt, nextPc]
  | _ => exact Host.Outcome.next.inj h ▸ rfl

/-- Settles O37: `exec_pc` at the instruction that each opcode decodes to. -/
theorem pcAfterStep : Obligations.PcAfterStep := by
  intro s t w hf hs
  rw [step_of_fetch_some hf] at hs
  rw [exec_pc hs]
  by_cases h5 : w.toNat / 4096 = 5
  · rw [decode_op5 (opcodeField_eq_iff.2 h5)]
    simp [nextPc, h5]
  by_cases h6 : w.toNat / 4096 = 6
  · rw [decode_op6 (opcodeField_eq_iff.2 h6)]
    simp [nextPc, h6]
  by_cases h7 : w.toNat / 4096 = 7
  · rw [decode_op7 (opcodeField_eq_iff.2 h7)]
    simp [nextPc, h7]
  by_cases h15 : w.toNat / 4096 = 15
  · rw [decode_op15 (opcodeField_eq_iff.2 h15)]
    simp [nextPc, h15]
  rw [nextPc_of_sequential (fun _ _ h => h5 (opcode_of_decode h)) (fun _ _ h => h6 (opcode_of_decode h))
    (fun _ h => h7 (opcode_of_decode h)) (fun h => h15 (opcode_of_decode h))]
  simp [h5, h6, h7, h15]

/-- Settles O41: `step` is the fetched word's meaning, and `exec_pc` outside the jump family. -/
theorem stepRunsDecoded : Obligations.StepRunsDecoded := by
  intro s w hf
  refine ⟨hf, step_of_fetch_some hf, fun t hs hz hn hj he => ?_⟩
  rw [step_of_fetch_some hf] at hs
  exact (exec_pc hs).trans (nextPc_of_sequential hz hn hj he)

/-! ## R92: running and halted -/

theorem halted_of_fetch_none {s : State} (h : fetch s = none) : halted s = true := by
  simp [halted, offMemory, h]

theorem halted_of_fetch_some {s : State} {w : Word} (h : fetch s = some w) :
    halted s = decide (w.toNat / 4096 = 15) := by
  simp [halted, offMemory, atEnd, h, opcodeField_eq_iff]

theorem halted_of_end {s : State} {w : Word} (h : fetch s = some w) (hw : w.toNat / 4096 = 15) : halted s = true := by
  rw [halted_of_fetch_some h, decide_eq_true hw]

theorem running_iff {s : State} : running s = true ↔ ∃ w, fetch s = some w ∧ w.toNat / 4096 ≠ 15 := by
  rw [running, Bool.not_eq_true']
  cases h : fetch s with
  | none => simp [halted_of_fetch_none h]
  | some w => simp [halted_of_fetch_some h]

theorem halted_iff {s : State} : halted s = true ↔ running s = false := by
  rw [running, Bool.not_eq_false']

/-- A halted engine is off memory or at an END. -/
theorem fetch_of_halted {s : State} (h : halted s = true) :
    fetch s = none ∨ ∃ w, fetch s = some w ∧ w.toNat / 4096 = 15 := by
  cases hf : fetch s with
  | none => exact .inl rfl
  | some w => exact .inr ⟨w, rfl, of_decide_eq_true ((halted_of_fetch_some hf).symm.trans h)⟩

/-- R202: the halt at a fetched word. -/
theorem haltCondition_of_fetch_some {s : State} {w : Word} (h : fetch s = some w) :
    haltCondition s = if w.toNat / 4096 = 15 then some (.haltedAtEnd s.pc) else none := by
  split
  · next hw => exact haltCondition_of_end h (opcodeField_eq_iff.2 hw)
  · next hw => exact haltCondition_of_running h (mt opcodeField_eq_iff.1 hw)

theorem haltCondition_eq_none {s : State} (h : running s = true) : haltCondition s = none := by
  obtain ⟨w, hf, hw⟩ := running_iff.1 h
  rw [haltCondition_of_fetch_some hf, if_neg hw]

theorem exists_haltCondition_of_halted {s : State} (h : halted s = true) : ∃ c, haltCondition s = some c := by
  obtain hf | ⟨w, hf, hw⟩ := fetch_of_halted h
  · exact ⟨_, haltCondition_of_fetch_none hf⟩
  · exact ⟨_, haltCondition_of_end hf (opcodeField_eq_iff.2 hw)⟩

/-! ## R93: the loop over `step`

What an iteration does is one of three: a halt, a step to a next state, a fault (`iteration_cases`). The rules for `step`,
`stepLoop` and `loopHalt` in each of them carry the inductions over the budget. -/

/-- Everything an iteration can do. -/
theorem iteration_cases (s : State) :
    halted s = true ∨ (running s = true ∧ ∃ t, step s = .next t) ∨ (running s = true ∧ ∃ r, step s = .fault r) := by
  cases hr : running s with
  | false => exact .inl (halted_iff.2 hr)
  | true =>
    cases hs : step s with
    | next t => exact .inr (.inl ⟨rfl, t, rfl⟩)
    | fault r => exact .inr (.inr ⟨rfl, r, rfl⟩)
    | refused r => exact absurd hs (Encoding.nothingRefused.2 s r)

theorem step_of_halted {s : State} (h : halted s = true) : step s = .next s := by
  obtain hf | ⟨w, hf, hw⟩ := fetch_of_halted h
  · exact step_of_fetch_none hf
  · rw [step_of_fetch_some hf, decode_eq_endOp_iff.2 hw]
    rfl

theorem stepLoop_of_halted (n : Nat) {s : State} (h : halted s = true) : stepLoop n s = .returned s := by
  cases n with
  | zero => rfl
  | succ n =>
    obtain hf | ⟨w, hf, hw⟩ := fetch_of_halted h
    · exact stepLoop_of_fetch_none n hf
    · exact stepLoop_of_end n hf (decode_eq_endOp_iff.2 hw)

theorem stepLoop_of_step_next (n : Nat) {s t : State} (hr : running s = true) (hs : step s = .next t) :
    stepLoop (n + 1) s = stepLoop n t := by
  obtain ⟨w, hf, hw⟩ := running_iff.1 hr
  exact stepLoop_of_next n hf (mt decode_eq_endOp_iff.1 hw) ((step_of_fetch_some hf).symm.trans hs)

theorem stepLoop_of_step_fault (n : Nat) {s : State} {r : Fault} (hr : running s = true) (hs : step s = .fault r) :
    stepLoop (n + 1) s = .faulted r s := by
  obtain ⟨w, hf, hw⟩ := running_iff.1 hr
  exact stepLoop_of_fault n hf (mt decode_eq_endOp_iff.1 hw) ((step_of_fetch_some hf).symm.trans hs)

theorem loopHalt_of_halted (n : Nat) {s : State} (h : halted s = true) : loopHalt (n + 1) s = haltCondition s := by
  obtain ⟨c, hc⟩ := exists_haltCondition_of_halted h
  rw [loopHalt, hc]

theorem loopHalt_of_step_next (n : Nat) {s t : State} (hr : running s = true) (hs : step s = .next t) :
    loopHalt (n + 1) s = loopHalt n t := by
  simp only [loopHalt, haltCondition_eq_none hr, hs]

theorem loopHalt_of_step_fault (n : Nat) {s : State} {r : Fault} (hr : running s = true) (hs : step s = .fault r) :
    loopHalt (n + 1) s = none := by
  simp only [loopHalt, haltCondition_eq_none hr, hs]

/-- Settles O44: one rule of this section for each clause. -/
theorem budgetCountsInstructions : Obligations.BudgetCountsInstructions :=
  ⟨fun _ => rfl, fun n _ _ => stepLoop_of_step_next n, fun n _ _ => stepLoop_of_step_fault n,
    fun n _ => stepLoop_of_halted n, fun _ _ _ => rfl⟩

/-! ## R93: the loop and the machine's single steps -/

theorem run_of_step_next {M : Host.Core} (n : Nat) {s t : M.State} (h : M.step s = .next t) :
    M.run (n + 1) s = M.run n t := by
  rw [Host.Core.run, h]

theorem run_of_step_fault {M : Host.Core} (n : Nat) {s : M.State} {r : M.Fault} (h : M.step s = .fault r) :
    M.run (n + 1) s = .fault r := by
  rw [Host.Core.run, h]

/-- Settles O46, by induction over the budget: a halted engine steps to itself, so there the run goes on where the loop
has returned. -/
theorem loopRefinesSteps : Obligations.LoopRefinesSteps := by
  intro n
  induction n with
  | zero => exact fun s => rfl
  | succ n ih =>
    intro s
    obtain h | ⟨hr, t, hs⟩ | ⟨hr, r, hs⟩ := iteration_cases s
    · rw [run_of_step_next (M := core) n (step_of_halted h), ih, stepLoop_of_halted _ h, stepLoop_of_halted _ h]
    · rw [run_of_step_next (M := core) n hs, ih, stepLoop_of_step_next n hr hs]
    · rw [run_of_step_fault (M := core) n hs, stepLoop_of_step_fault n hr hs]

/-! ## R100: a call taken up again -/

/-- The loop with budget `m` from where a call returned; a call that stopped stays as it is. -/
def resume (m : Nat) : CallResult → CallResult
  | .returned t => stepLoop m t
  | .faulted r t => .faulted r t
  | .refused r t => .refused r t

/-- A call's result with the reports `rs` before those of its state. -/
def prependToResult (rs : List Report) : CallResult → CallResult
  | .returned u => .returned (prependReports rs u)
  | .faulted r u => .faulted r (prependReports rs u)
  | .refused r u => .refused r (prependReports rs u)

/-- A budget is spent in two parts as in one. -/
theorem stepLoop_add (n m : Nat) (s : State) : stepLoop (n + m) s = resume m (stepLoop n s) := by
  induction n generalizing s with
  | zero => rw [Nat.zero_add]; rfl
  | succ n ih =>
    obtain h | ⟨hr, t, hs⟩ | ⟨hr, r, hs⟩ := iteration_cases s
    · rw [stepLoop_of_halted _ h, stepLoop_of_halted _ h, resume, stepLoop_of_halted _ h]
    · rw [Nat.add_right_comm, stepLoop_of_step_next _ hr hs, stepLoop_of_step_next _ hr hs, ih]
    · rw [Nat.add_right_comm, stepLoop_of_step_fault _ hr hs, stepLoop_of_step_fault _ hr hs, resume]

theorem eq_prependToResult {rs : List Report} {c d : CallResult} (h : SameButReports rs c d) :
    d = prependToResult rs c := by
  cases c with
  | returned t =>
    cases d with
    | returned u => exact congrArg _ h
    | _ => exact h.elim
  | faulted r t =>
    cases d with
    | faulted r' u =>
      obtain ⟨rfl, rfl⟩ := h
      rfl
    | _ => exact h.elim
  | refused r t => cases d <;> exact h.elim

/-- The loop from a state is the call from its `pc`, whose reports stand after the state's own (`stepLoop_prependReports`). -/
theorem stepLoop_eq_stepCall (m : Nat) (t : State) :
    stepLoop m t = prependToResult t.reports (stepCall t.pc m t) := by
  have ht : prependReports t.reports { t with reports := [] } = t := by simp [prependReports]
  have h := stepLoop_prependReports m { t with reports := [] } t.reports
  rw [ht] at h
  exact eq_prependToResult h

/-- Settles O45: the budget splits (`stepLoop_add`), and the second call's reports follow those of the first
(`stepLoop_eq_stepCall`). -/
theorem resumptionAgrees : Obligations.ResumptionAgrees := by
  intro n m pc s
  rw [show stepCall pc (n + m) s = resume m (stepCall pc n s) from stepLoop_add n m _]
  cases stepCall pc n s with
  | returned t =>
    rw [resume, stepLoop_eq_stepCall]
    dsimp only
    cases stepCall t.pc m t <;> rfl
  | faulted r t => rfl
  | refused r t => rfl

/-! ## R96, R97: a halted engine's call -/

theorem stepCall_of_halted (n : Nat) {s : State} (h : halted s = true) :
    stepCall s.pc n s = .returned { s with reports := [] } :=
  stepLoop_of_halted (s := { s with reports := [] }) n h

/-- Settles O43: an END halts, and the returned state, its reports apart, is the state called from. -/
theorem endStays : Obligations.EndStays := by
  intro s w n m hf hw
  have h := halted_of_end hf hw
  refine ⟨stepLoop_of_halted n h, h, fun t ht => ?_⟩
  obtain rfl := CallResult.returned.inj ((stepCall_of_halted n h).symm.trans ht)
  exact ⟨rfl, stepCall_of_halted m h⟩

/-- R26, R45: below 0 and from MEM_LEN on nothing is fetched. -/
theorem fetch_outside {s : State} (h : s.pc < 0 ∨ s.mem.len ≤ s.pc) : fetch s = none :=
  Memory.read_outside fun ⟨h0, hlt⟩ => by omega

/-- R202: a loop that meets a halt returned there. -/
theorem stepLoop_of_loopHalt {n : Nat} {s : State} {c : Condition} (hc : loopHalt n s = some c) :
    ∃ t, stepLoop n s = .returned t ∧ haltCondition t = some c := by
  induction n generalizing s with
  | zero => nomatch hc
  | succ n ih =>
    obtain h | ⟨hr, t, hs⟩ | ⟨hr, r, hs⟩ := iteration_cases s
    · rw [loopHalt_of_halted n h] at hc
      exact ⟨s, stepLoop_of_halted _ h, hc⟩
    · rw [loopHalt_of_step_next n hr hs] at hc
      rw [stepLoop_of_step_next n hr hs]
      exact ih hc
    · nomatch (loopHalt_of_step_fault n hr hs).symm.trans hc

/-- One more unit of budget meets the halt, if any, at the state returned. -/
theorem loopHalt_succ_of_stepLoop {n : Nat} {s t : State} (ht : stepLoop n s = .returned t) :
    loopHalt (n + 1) s = haltCondition t := by
  induction n generalizing s with
  | zero =>
    obtain rfl := CallResult.returned.inj ht
    obtain h | ⟨hr, u, hs⟩ | ⟨hr, r, hs⟩ := iteration_cases s
    · exact loopHalt_of_halted 0 h
    · rw [loopHalt_of_step_next 0 hr hs, haltCondition_eq_none hr, loopHalt]
    · rw [loopHalt_of_step_fault 0 hr hs, haltCondition_eq_none hr]
  | succ n ih =>
    obtain h | ⟨hr, u, hs⟩ | ⟨hr, r, hs⟩ := iteration_cases s
    · obtain rfl := CallResult.returned.inj ((stepLoop_of_halted _ h).symm.trans ht)
      exact loopHalt_of_halted _ h
    · rw [stepLoop_of_step_next n hr hs] at ht
      rw [loopHalt_of_step_next _ hr hs]
      exact ih ht
    · nomatch (stepLoop_of_step_fault n hr hs).symm.trans ht

theorem callConditions_of_returned {pc : Int} {n : Nat} {s t : State} (h : stepCall pc n s = .returned t) :
    callConditions pc n s =
      t.reports.map Report.condition ++ (loopHalt n { s with pc := pc, reports := [] }).toList := by
  rw [callConditions, h]

theorem callConditions_of_faulted {pc : Int} {n : Nat} {s t : State} {r : Fault} (h : stepCall pc n s = .faulted r t) :
    callConditions pc n s = t.reports.map Report.condition ++ [r.condition] := by
  rw [callConditions, h]

/-- Settles O42: the rules for a halted engine, and the two lemmas about the halt a loop meets. -/
theorem offMemoryHalts : Obligations.OffMemoryHalts := by
  refine ⟨fun s => ⟨haltCondition_of_fetch_none, fun w => haltCondition_of_fetch_some⟩,
    fun n s => ⟨fun c => stepLoop_of_loopHalt, fun t => loopHalt_succ_of_stepLoop⟩,
    fun pc n s t => ⟨callConditions_of_returned, fun addr => callConditions_of_faulted⟩,
    fun s => ⟨running_iff, halted_iff⟩, fun s n hout => ?_⟩
  have hf := fetch_outside hout
  have h := halted_of_fetch_none hf
  exact ⟨hf, step_of_halted h, stepLoop_of_halted n h, stepCall_of_halted n h, h⟩

/-! ## R98: a faulted call -/

/-- A loop that faults stands where a smaller budget would have returned, at the faulting instruction. -/
theorem stepLoop_before_fault {n : Nat} {s t : State} {r : Fault} (hft : stepLoop n s = .faulted r t) :
    ∃ k, k < n ∧ stepLoop k s = .returned t ∧ running t = true ∧ step t = .fault r := by
  induction n generalizing s with
  | zero => nomatch hft
  | succ n ih =>
    obtain h | ⟨hr, u, hs⟩ | ⟨hr, r', hs⟩ := iteration_cases s
    · nomatch (stepLoop_of_halted _ h).symm.trans hft
    · rw [stepLoop_of_step_next n hr hs] at hft
      obtain ⟨k, hk, hret, hrun, hstep⟩ := ih hft
      exact ⟨k + 1, Nat.succ_lt_succ hk, (stepLoop_of_step_next k hr hs).trans hret, hrun, hstep⟩
    · obtain ⟨rfl, rfl⟩ := CallResult.faulted.inj ((stepLoop_of_step_fault n hr hs).symm.trans hft)
      exact ⟨0, n.succ_pos, rfl, hr, hs⟩

/-- R98, D30: the move after a sequence that ended faulted is a move in the faulted state. -/
theorem hostRun_concat_of_faulted {acts : List HostAction} {s t : State} {r : Fault} (act : HostAction)
    (h : hostRun acts s = .faulted r t) : hostRun (acts ++ [act]) s = hostActStopped act (.faulted r) t := by
  rw [hostRun_concat, h, hostNext]

/-- Settles O47: `stepLoop_before_fault`, and `hostActStopped` for each move. -/
theorem faultKeepsEarlierEffects : Obligations.FaultKeepsEarlierEffects := by
  refine ⟨fun n s t r => stepLoop_before_fault, fun acts s t r h => ?_, fun acts img s => ?_⟩
  · exact ⟨fun n => hostRun_concat_of_faulted (.step n) h, fun pc n => hostRun_concat_of_faulted (.stepFrom pc n) h,
      hostRun_concat_of_faulted .inspect h, hostRun_concat_of_faulted .loadFailed h,
      fun k v => hostRun_concat_of_faulted (.writePort k v) h⟩
  · rw [hostRun_concat, hostNext_load]

end Sys2Proof.CallLoop

namespace Sys2Proof.MemoryTransfer

open Sys2Proof.Machine

/-! ## The encodings: words written out by their fields -/

/-- Format RL, written out high bits first. -/
theorem field_appendRL (op a : BitVec 4) (n : BitVec 8) :
    field (op ++ a ++ n) 0 4 = op ∧ field (op ++ a ++ n) 4 4 = a ∧ field (op ++ a ++ n) 8 8 = n :=
  ⟨(BitVec.extractLsb'_append_eq_of_le (by decide)).trans BitVec.extractLsb'_append_eq_left,
    (BitVec.extractLsb'_append_eq_of_le (by decide)).trans BitVec.extractLsb'_append_eq_right,
    BitVec.extractLsb'_append_eq_right⟩

/-- Format RRR, written out high bits first: format RL with the 8-bit field in two halves. -/
theorem field_appendRRR (op a b c : BitVec 4) :
    field (op ++ a ++ b ++ c) 0 4 = op ∧ field (op ++ a ++ b ++ c) 4 4 = a ∧ field (op ++ a ++ b ++ c) 8 4 = b ∧
      field (op ++ a ++ b ++ c) 12 4 = c := by
  have hRL : op ++ a ++ b ++ c = op ++ a ++ (b ++ c) := BitVec.append_assoc
  obtain ⟨hop, ha, -⟩ := field_appendRL op a (b ++ c)
  exact ⟨hRL ▸ hop, hRL ▸ ha, (BitVec.extractLsb'_append_eq_of_le (by decide)).trans BitVec.extractLsb'_append_eq_right,
    BitVec.extractLsb'_append_eq_right⟩

theorem decode_load (a : BitVec 4) (l : BitVec 8) : decode (0x0#4 ++ a ++ l) = .load a l := by
  obtain ⟨hop, ha, hl⟩ := field_appendRL 0x0#4 a l
  rw [decode_op0 hop, ha, hl]

theorem decode_store (a : BitVec 4) (l : BitVec 8) : decode (0x1#4 ++ a ++ l) = .store a l := by
  obtain ⟨hop, ha, hl⟩ := field_appendRL 0x1#4 a l
  rw [decode_op1 hop, ha, hl]

theorem decode_loadc (a : BitVec 4) (k : BitVec 8) : decode (0x3#4 ++ a ++ k) = .loadc a k := by
  obtain ⟨hop, ha, hk⟩ := field_appendRL 0x3#4 a k
  rw [decode_op3 hop, ha, hk]

theorem decode_movr (a b c : BitVec 4) : decode (0x8#4 ++ a ++ b ++ c) = .movr a b c := by
  obtain ⟨hop, ha, hb, hc⟩ := field_appendRRR 0x8#4 a b c
  rw [decode_op8 hop, ha, hb, hc]

/-! ## R105, R107, R108: one register written -/

/-- From `s` to `t` the register `a` was written with `v`, `pc` went to the next address, and nothing else changed. -/
def WritesReg (a : RegIdx) (v : Word) (s t : State) : Prop :=
  t.reg a = v ∧ t.pc = s.pc + 1 ∧ SameRegsBut a s t ∧ SamePorts s t ∧ SameMemory s t ∧ t.reports = s.reports

theorem writesReg_setReg_advance (a : RegIdx) (v : Word) (s : State) : WritesReg a v s (s.setReg a v).advance :=
  ⟨s.setReg_reg_same a v, rfl, fun r hr => s.setReg_reg_ne a r v hr, fun _ => rfl, ⟨rfl, fun _ => rfl⟩, rfl⟩

/-- A load of an address inside memory writes its word to the register. -/
theorem loadFrom_inBounds (a : RegIdx) {addr : Int} {s : State} (h : s.mem.inBounds addr) :
    ∃ t v, loadFrom a addr s = .next t ∧ s.mem.read addr = some v ∧ WritesReg a v s t :=
  have hread := Memory.read_inBounds h
  ⟨_, _, loadFrom_of_read hread, hread, writesReg_setReg_advance a _ s⟩

/-- Settles O17: LOAD is a load of its address field. -/
theorem loadCompletes : Obligations.LoadCompletes := fun a l _ hl =>
  ⟨decode_load a l, loadFrom_inBounds a ⟨Int.natCast_nonneg _, Int.ofNat_lt.2 hl⟩⟩

/-- R67, R107: the constant of LOADC by number. -/
theorem loadcConst_toNat (k : BitVec 8) :
    (loadcConst k).toNat = if k.toNat < 128 then k.toNat else 0xFF00 + k.toNat := by
  have h : ((loadcConst k).toNat : Int) = k.toInt % 65536 :=
    (WordReading.sext_toNat k).trans (by rw [toSigned_eq_toInt])
  rw [BitVec.toInt_eq_toNat_cond] at h
  split at h <;> split <;> omega

/-- Settles O19: LOADC writes its constant, whose number is `loadcConst_toNat`. -/
theorem loadcCompletes : Obligations.LoadcCompletes := by
  intro a k s
  obtain ⟨hreg, hframe⟩ := writesReg_setReg_advance a (loadcConst k) s
  exact ⟨decode_loadc a k, _, rfl, by rw [hreg, loadcConst_toNat], hframe⟩

/-- Settles O20: MOVR is a load of the address that `movrAddr_eq` gives by number. -/
theorem movrCompletes : Obligations.MovrCompletes := by
  intro a b c s addr haddr h0 hlt
  obtain rfl : addr = movrAddr b c s := haddr.trans (MemoryAccess.movrAddr_eq b c s).symm
  exact ⟨decode_movr a b c, loadFrom_inBounds a ⟨h0, hlt⟩⟩

/-! ## R106: one word of memory written -/

/-- Settles O18: STORE writes one word (`Memory.read_write_same`, `Memory.read_write_ne`) and keeps MEM_LEN
(`Memory.write_len`). -/
theorem storeCompletes : Obligations.StoreCompletes := by
  intro a l s hwf hl
  obtain ⟨m, hm⟩ : ∃ m, s.mem.write (absAddr l) (s.reg a) = some m :=
    ⟨_, Memory.write_inBounds _ ⟨Int.natCast_nonneg _, Int.ofNat_lt.2 hl⟩⟩
  exact ⟨decode_store a l, _, storeTo_of_write hm, Memory.read_write_same hwf hm, MemoryAccess.absAddr_eq l, rfl,
    fun _ => rfl, fun _ => rfl, ⟨Memory.write_len hm, fun _ => Memory.read_write_ne hm⟩, rfl⟩

end Sys2Proof.MemoryTransfer

namespace Sys2Proof.Arithmetic

open Sys2Proof.Machine

/-! ## R115, R116: one register written with the reduced result -/

theorem decode_add (a b c : BitVec 4) : decode (0x2#4 ++ a ++ b ++ c) = .add a b c := by
  obtain ⟨hop, ha, hb, hc⟩ := MemoryTransfer.field_appendRRR 0x2#4 a b c
  rw [decode_op2 hop, ha, hb, hc]

theorem decode_sub (a b c : BitVec 4) : decode (0x4#4 ++ a ++ b ++ c) = .sub a b c := by
  obtain ⟨hop, ha, hb, hc⟩ := MemoryTransfer.field_appendRRR 0x4#4 a b c
  rw [decode_op4 hop, ha, hb, hc]

theorem addResult_eq_ofInt (u v : Word) : addResult u v = BitVec.ofInt 16 (u.toInt + v.toInt) := by
  rw [addResult, toSigned_eq_toInt, toSigned_eq_toInt, trunc]

theorem subResult_eq_ofInt (u v : Word) : subResult u v = BitVec.ofInt 16 (u.toInt - v.toInt) := by
  rw [subResult, toSigned_eq_toInt, toSigned_eq_toInt, trunc]

/-- Settles O22: ADD writes `addResult`, the reduced sum of the signed readings, and nothing else but `pc`. -/
theorem addCompletes : Obligations.AddCompletes := by
  intro a b c s
  obtain ⟨hreg, hframe⟩ := MemoryTransfer.writesReg_setReg_advance a (addResult (s.reg b) (s.reg c)) s
  exact ⟨decode_add a b c, _, rfl, hreg.trans (addResult_eq_ofInt _ _), hframe⟩

/-- Settles O23: SUB writes `subResult`, the reduced difference of the signed readings, and nothing else but `pc`. -/
theorem subCompletes : Obligations.SubCompletes := by
  intro a b c s
  obtain ⟨hreg, hframe⟩ := MemoryTransfer.writesReg_setReg_advance a (subResult (s.reg b) (s.reg c)) s
  exact ⟨decode_sub a b c, _, rfl, hreg.trans (subResult_eq_ofInt _ _), hframe⟩

/-! ## R117: the two readings of the result

The bits of the result are those of the sum or difference of the words (`trunc_add_signed`, `trunc_sub_signed`), which
gives the unsigned reading; the signed one is the reduced integer itself where that has 16 bits. -/

theorem addResult_toNat (u v : Word) : (addResult u v).toNat = (u.toNat + v.toNat) % 65536 := by
  rw [addResult, trunc_add_signed, BitVec.toNat_add]

theorem subResult_toNat (u v : Word) : (subResult u v).toNat = (65536 + u.toNat - v.toNat) % 65536 := by
  have hlt := v.isLt
  rw [subResult, trunc_sub_signed, BitVec.toNat_sub]
  omega

theorem toInt_ofInt_of_inRange {n : Int} (hlo : -32768 ≤ n) (hhi : n ≤ 32767) : (BitVec.ofInt 16 n).toInt = n :=
  BitVec.toInt_ofInt_eq_self (by decide) hlo (Int.lt_add_one_of_le hhi)

theorem reg_of_exec_add {a b c : BitVec 4} {s t : State} (h : exec (.add a b c) s = .next t) :
    t.reg a = addResult (s.reg b) (s.reg c) := by
  obtain rfl := Host.Outcome.next.inj h
  exact s.setReg_reg_same a _

theorem reg_of_exec_sub {a b c : BitVec 4} {s t : State} (h : exec (.sub a b c) s = .next t) :
    t.reg a = subResult (s.reg b) (s.reg c) := by
  obtain rfl := Host.Outcome.next.inj h
  exact s.setReg_reg_same a _

/-- Settles O24: the readings of `addResult` and `subResult`. -/
theorem arithmeticModulo : Obligations.ArithmeticModulo := by
  intro a b c s t
  constructor
  · intro h
    rw [reg_of_exec_add h]
    exact ⟨addResult_toNat _ _, fun hlo hhi => by rw [addResult_eq_ofInt, toInt_ofInt_of_inRange hlo hhi]⟩
  · intro h
    rw [reg_of_exec_sub h]
    exact ⟨subResult_toNat _ _, fun hlo hhi => by rw [subResult_eq_ofInt, toInt_ofInt_of_inRange hlo hhi]⟩

end Sys2Proof.Arithmetic

namespace Sys2Proof.Jumps

open Sys2Proof.Machine Sys2Proof.Asm Sys2Proof.CallLoop

/-! ## R121 to R123: the encodings -/

theorem decode_jmpz (a : BitVec 4) (l : BitVec 8) : decode (0x5#4 ++ a ++ l) = .jmpz a l := by
  obtain ⟨hop, ha, hl⟩ := MemoryTransfer.field_appendRL 0x5#4 a l
  rw [decode_op5 hop, ha, hl]

theorem decode_jmpn (a : BitVec 4) (l : BitVec 8) : decode (0x6#4 ++ a ++ l) = .jmpn a l := by
  obtain ⟨hop, ha, hl⟩ := MemoryTransfer.field_appendRL 0x6#4 a l
  rw [decode_op6 hop, ha, hl]

theorem decode_jmp (j : BitVec 12) : decode (0x7#4 ++ j) = .jmp j := by
  obtain ⟨hop, hj⟩ : field (0x7#4 ++ j) 0 4 = 0x7#4 ∧ field (0x7#4 ++ j) 4 12 = j := field_reservedWord 0x7#4 j
  rw [decode_op7 hop, hj]

/-! ## The target by number

`nextPc` has the target by the signed readings; the statements of R121 to R123 write these out by number. -/

theorem toInt_eq_by_half {W half : Nat} (hW : 2 ^ W = 2 * half) (v : BitVec W) :
    v.toInt = if v.toNat < half then (v.toNat : Int) else v.toNat - 2 ^ W := by
  have hhalf : 2 * v.toNat < 2 ^ W ↔ v.toNat < half := by rw [hW, Nat.mul_lt_mul_left Nat.two_pos]
  simp only [BitVec.toInt_eq_toNat_cond, hhalf, Nat.cast_pow, Nat.cast_ofNat]

theorem nextPc_jmpz (a : BitVec 4) (l : BitVec 8) (s : State) :
    nextPc s (.jmpz a l) =
      if s.reg a = 0 then s.pc + (if l.toNat < 128 then (l.toNat : Int) else l.toNat - 256) else s.pc + 1 := by
  rw [nextPc, toInt_eq_by_half (half := 128) rfl l]
  rfl

/-- R122: the words read as negative are those from 0x8000 on. -/
theorem nextPc_jmpn (a : BitVec 4) (l : BitVec 8) (s : State) :
    nextPc s (.jmpn a l) =
      if 0x8000 ≤ (s.reg a).toNat then s.pc + (if l.toNat < 128 then (l.toNat : Int) else l.toNat - 256)
      else s.pc + 1 := by
  have hneg : (s.reg a).toInt < 0 ↔ 0x8000 ≤ (s.reg a).toNat := by
    rw [BitVec.toInt_neg_iff]
    omega
  simp only [nextPc, hneg, toInt_eq_by_half (half := 128) rfl l]
  rfl

theorem nextPc_jmp (j : BitVec 12) (s : State) :
    nextPc s (.jmp j) = s.pc + (if j.toNat < 2048 then (j.toNat : Int) else j.toNat - 4096) := by
  rw [nextPc, toInt_eq_by_half (half := 2048) rfl j]
  rfl

/-! ## R121 to R123: `pc` set and nothing else -/

/-- From `s` to `t` at most `pc` changed. -/
def SameButPc (s t : State) : Prop := SameRegs s t ∧ SamePorts s t ∧ SameMemory s t ∧ t.reports = s.reports

theorem sameButPc_setPc (s : State) (target : Int) : SameButPc s (s.setPc target) :=
  ⟨fun _ => rfl, fun _ => rfl, ⟨rfl, fun _ => rfl⟩, rfl⟩

theorem sameButPc_condJump (taken : Bool) (d : Int) (s : State) :
    SameButPc s (if taken then s.jumpBy d else s.advance) := by
  cases taken
  · exact sameButPc_setPc s (s.pc + 1)
  · exact sameButPc_setPc s (s.pc + d)

/-- Settles O25: the `pc` of R95's table (`exec_pc`) by number, and the frame of a conditional jump. -/
theorem jmpzCompletes : Obligations.JmpzCompletes := fun a l s =>
  ⟨decode_jmpz a l, _, rfl, (exec_pc rfl).trans (nextPc_jmpz a l s),
    sameButPc_condJump (isZero (s.reg a)) (condDisp l) s⟩

/-- Settles O26: as JMPZ, with the condition of R122. -/
theorem jmpnCompletes : Obligations.JmpnCompletes := fun a l s =>
  ⟨decode_jmpn a l, _, rfl, (exec_pc rfl).trans (nextPc_jmpn a l s),
    sameButPc_condJump (isNegative (s.reg a)) (condDisp l) s⟩

/-- Settles O27: JMP sets `pc`, without a condition. -/
theorem jmpCompletes : Obligations.JmpCompletes := fun j s =>
  ⟨decode_jmp j, _, rfl, (exec_pc rfl).trans (nextPc_jmp j s), sameButPc_setPc s (s.pc + jmpDisp j)⟩

/-! ## R120, R187: an assembled jump to a label

Pass 2 makes the displacement `v - i`; where that fits its field the decoded jump has it back, and a taken jump from `i`
adds it and nothing more (D1). -/

section LabelOperand

variable {lt : LabelTable} {name : Text} {v : Nat}

theorem labelDisp_of_find (h : lt.find name = some v) (i : Nat) (line : Text) :
    labelDisp lt i line name = .ok ((v : Int) - i) := by
  rw [labelDisp, addrOf, h]
  rfl

theorem resolve_jmpz_label (h : lt.find name = some v) (i a : Nat) (line : Text) :
    resolveOperands .jmpz lt i [.register a, .label name] line = .ok (.jmpz a ((v : Int) - i)) :=
  congrArg (Except.map (Operation.jmpz a)) (labelDisp_of_find h i line)

theorem resolve_jmpn_label (h : lt.find name = some v) (i a : Nat) (line : Text) :
    resolveOperands .jmpn lt i [.register a, .label name] line = .ok (.jmpn a ((v : Int) - i)) :=
  congrArg (Except.map (Operation.jmpn a)) (labelDisp_of_find h i line)

theorem resolve_jmp_label (h : lt.find name = some v) (i : Nat) (line : Text) :
    resolveOperands .jmp lt i [.label name] line = .ok (.jmp ((v : Int) - i)) :=
  congrArg (Except.map Operation.jmp) (labelDisp_of_find h i line)

end LabelOperand

theorem toInt_trunc {W : Nat} {n : Int} (hW : 1 ≤ W) (h : fitsSigned n W = true) : (trunc W n).toInt = n :=
  (toSigned_eq_toInt _).symm.trans (Encoding.toSigned_trunc hW h)

/-- The word of an operation, executed: the instruction it was cut to, and that instruction's `pc`. -/
theorem exec_decode_encodeOp_pc {op : Operation} {s t : State} {target : Int}
    (hx : exec (Encoding.cutToFields op) s = .next t) (hpc : nextPc s (Encoding.cutToFields op) = target) :
    ∃ t, exec (decode (encodeOp op)) s = .next t ∧ t.pc = target := by
  rw [Encoding.decode_encodeOp]
  exact ⟨t, hx, (exec_pc hx).trans hpc⟩

theorem encoded_jmpz_lands {s : State} {a : Nat} {n target : Int} (ht : s.pc + n = target)
    (hn : fitsSigned n 8 = true) (hz : s.reg (BitVec.ofNat 4 a) = 0) :
    ∃ t, exec (decode (encodeOp (.jmpz a n))) s = .next t ∧ t.pc = target := by
  refine exec_decode_encodeOp_pc rfl ?_
  rw [Encoding.cutToFields, nextPc, toInt_trunc (by decide) hn]
  exact (if_pos hz).trans ht

theorem encoded_jmpn_lands {s : State} {a : Nat} {n target : Int} (ht : s.pc + n = target)
    (hn : fitsSigned n 8 = true) (hneg : (s.reg (BitVec.ofNat 4 a)).toInt < 0) :
    ∃ t, exec (decode (encodeOp (.jmpn a n))) s = .next t ∧ t.pc = target := by
  refine exec_decode_encodeOp_pc rfl ?_
  rw [Encoding.cutToFields, nextPc, toInt_trunc (by decide) hn]
  exact (if_pos hneg).trans ht

theorem encoded_jmp_lands {s : State} {n target : Int} (ht : s.pc + n = target) (hn : fitsSigned n 12 = true) :
    ∃ t, exec (decode (encodeOp (.jmp n))) s = .next t ∧ t.pc = target := by
  refine exec_decode_encodeOp_pc rfl ?_
  rw [Encoding.cutToFields, nextPc, toInt_trunc (by decide) hn, ht]

/-- Settles O58: the operation pass 2 resolves, and where its word lands from `pc` equal to the jump's index. -/
theorem jumpToLabelLands : Obligations.JumpToLabelLands := by
  intro lt i v name line s hfind hpc
  have htarget : s.pc + ((v : Int) - i) = v := by rw [hpc, add_sub_cancel]
  refine ⟨fun hfits op hop => ?_, fun hfits a op _ => ⟨fun hop hz => ?_, fun hop hneg => ?_⟩⟩
  · obtain rfl := Except.ok.inj ((resolve_jmp_label hfind i line).symm.trans hop)
    exact encoded_jmp_lands htarget hfits
  · obtain rfl := Except.ok.inj ((resolve_jmpz_label hfind i a line).symm.trans hop)
    exact encoded_jmpz_lands htarget hfits hz
  · obtain rfl := Except.ok.inj ((resolve_jmpn_label hfind i a line).symm.trans hop)
    exact encoded_jmpn_lands htarget hfits hneg

end Sys2Proof.Jumps

namespace Sys2Proof.IoEndReserved

open Sys2Proof.Machine

/-! ## R130: IO -/

/-- Format IO, written out high bits first: the fields do not depend on the low 4 bits (D7). -/
theorem field_appendIO (op a : BitVec 4) (p : BitVec 3) (d : BitVec 1) (low : BitVec 4) :
    field (op ++ a ++ p ++ d ++ low) 0 4 = op ∧ field (op ++ a ++ p ++ d ++ low) 4 4 = a ∧
      field (op ++ a ++ p ++ d ++ low) 8 3 = p ∧ field (op ++ a ++ p ++ d ++ low) 11 1 = d := by
  unfold field
  refine ⟨?_, ?_, ?_, ?_⟩ <;> rw [BitVec.extractLsb'_append_eq_of_le (by decide)]
  · rw [BitVec.extractLsb'_append_eq_of_le (by decide), BitVec.extractLsb'_append_eq_of_le (by decide)]
    exact BitVec.extractLsb'_append_eq_left
  · rw [BitVec.extractLsb'_append_eq_of_le (by decide), BitVec.extractLsb'_append_eq_of_le (by decide)]
    exact BitVec.extractLsb'_append_eq_right
  · rw [BitVec.extractLsb'_append_eq_of_le (by decide)]
    exact BitVec.extractLsb'_append_eq_right
  · exact BitVec.extractLsb'_append_eq_right

theorem decode_io (a : BitVec 4) (p : BitVec 3) (d : BitVec 1) (low : BitVec 4) :
    decode (0xE#4 ++ a ++ p ++ d ++ low) = .io a p d := by
  obtain ⟨hop, ha, hp, hd⟩ := field_appendIO 0xE#4 a p d low
  rw [decode_op14 hop, ha, hp, hd]

/-- From `s` to `t` the port `p` was written with `v`, `pc` went to the next address, and nothing else changed. -/
def WritesPort (p : PortIdx) (v : Word) (s t : State) : Prop :=
  t.port p = v ∧ t.pc = s.pc + 1 ∧ SameRegs s t ∧ SamePortsBut p s t ∧ SameMemory s t ∧ t.reports = s.reports

theorem writesPort_setPort_advance (p : PortIdx) (v : Word) (s : State) : WritesPort p v s (s.setPort p v).advance :=
  ⟨s.setPort_port_same p v, rfl, fun _ => rfl, fun k hk => s.setPort_port_ne p k v hk, ⟨rfl, fun _ => rfl⟩, rfl⟩

/-- Settles O28: each direction is one write, of the port or of the register. -/
theorem ioCompletes : Obligations.IoCompletes :=
  ⟨decode_io, fun a p s => ⟨_, rfl, writesPort_setPort_advance p (s.reg a) s⟩,
    fun a p s => ⟨_, rfl, MemoryTransfer.writesReg_setReg_advance a (s.port p) s⟩⟩

/-! ## R133: the reserved opcodes -/

theorem reservedStep_reportsAndAdvances (op : BitVec 4) (rest : BitVec 12) (s : State) :
    ∃ t, reservedStep op rest s = .next t ∧ ReportsAndAdvances (op ++ rest) s t :=
  ⟨_, rfl, rfl, rfl, fun _ => rfl, fun _ => rfl, ⟨rfl, fun _ => rfl⟩⟩

/-- Settles O30: a reserved instruction decodes from the word it encodes to (`Laws.RoundTrip`), and all five have the one
meaning `reservedStep`. -/
theorem reservedCompletes : Obligations.ReservedCompletes := fun rest s =>
  ⟨⟨Laws.RoundTrip.reserved9 rest, reservedStep_reportsAndAdvances 0x9#4 rest s⟩,
    ⟨Laws.RoundTrip.reserved10 rest, reservedStep_reportsAndAdvances 0xA#4 rest s⟩,
    ⟨Laws.RoundTrip.reserved11 rest, reservedStep_reportsAndAdvances 0xB#4 rest s⟩,
    ⟨Laws.RoundTrip.reserved12 rest, reservedStep_reportsAndAdvances 0xC#4 rest s⟩,
    ⟨Laws.RoundTrip.reserved13 rest, reservedStep_reportsAndAdvances 0xD#4 rest s⟩⟩

/-! ## R132: END -/

theorem decode_end (low : BitVec 12) : decode (0xF#4 ++ low) = .endOp := decode_op15 (field_reservedWord 0xF#4 low).1

/-- Settles O29: the words from 0xF000 on are those of opcode 15, at which the engine is halted
(`CallLoop.stepLoop_of_halted`). -/
theorem endCompletes : Obligations.EndCompletes := by
  refine ⟨decode_end, fun _ => rfl, rfl, fun s w n hf hw => ?_⟩
  have hop : w.toNat / 4096 = 15 := by omega
  exact CallLoop.stepLoop_of_halted n (CallLoop.halted_of_end hf hop)

end Sys2Proof.IoEndReserved

namespace Sys2Proof.AsmTokens

open Sys2Proof.Asm

/-! ## R142: the prepared line -/

theorem isSpace_iff (c : Char) : isSpace c = true ↔ c = ' ' ∨ (9 ≤ c.toNat ∧ c.toNat ≤ 13) := by
  simp [isSpace]

theorem isSeparator_iff (c : Char) :
    isSeparator c = true ↔ c = ',' ∨ c = ' ' ∨ (9 ≤ c.toNat ∧ c.toNat ≤ 13) := by
  simp [isSeparator, isSpace_iff, or_comm]

theorem isSeparator_of_isSpace {c : Char} (h : isSpace c = true) : isSeparator c = true := by
  simp [isSeparator, h]

theorem dropWhile_append_of_head {p : Char → Bool} {pre rest : Text} (hpre : ∀ c ∈ pre, p c = true)
    (hrest : ∀ c ∈ rest.head?, p c = false) : (pre ++ rest).dropWhile p = rest := by
  rw [List.dropWhile_append_of_pos hpre]
  cases rest with
  | nil => rfl
  | cons c cs => exact List.dropWhile_cons_of_neg (by simp [hrest c rfl])

/-- White space at both ends is what `trim` takes away. -/
theorem trim_append_append {pre mid post : Text} (hpre : ∀ c ∈ pre, isSpace c = true)
    (hpost : ∀ c ∈ post, isSpace c = true) (hhead : ∀ c ∈ mid.head?, isSpace c = false)
    (hlast : ∀ c ∈ mid.getLast?, isSpace c = false) : trim (pre ++ mid ++ post) = mid := by
  cases mid with
  | nil =>
    have hall : (pre ++ [] ++ post).dropWhile isSpace = [] := by
      simpa [List.dropWhile_eq_nil_iff, or_imp, forall_and] using ⟨hpre, hpost⟩
    rw [trim, hall]
    rfl
  | cons c cs =>
    have hleft : (pre ++ (c :: cs ++ post)).dropWhile isSpace = c :: cs ++ post :=
      dropWhile_append_of_head hpre hhead
    have hright : (post.reverse ++ (c :: cs).reverse).dropWhile isSpace = (c :: cs).reverse :=
      dropWhile_append_of_head (by simpa using hpost) (by simpa only [List.head?_reverse] using hlast)
    rw [trim, List.append_assoc, hleft, List.reverse_append, hright, List.reverse_reverse]

/-- A text is its trimmed form between white space. -/
theorem exists_trim_between (l : Text) :
    ∃ pre post : Text, (∀ c ∈ pre, isSpace c = true) ∧ (∀ c ∈ post, isSpace c = true) ∧
      l = pre ++ (trim l ++ post) := by
  refine ⟨l.takeWhile isSpace, (l.dropWhile isSpace).rtakeWhile isSpace, fun _ => List.mem_takeWhile_imp,
    fun _ => List.mem_rtakeWhile_imp, ?_⟩
  have htrim : trim l = (l.dropWhile isSpace).rdropWhile isSpace := rfl
  rw [htrim, List.rdropWhile_append_rtakeWhile, List.takeWhile_append_dropWhile]

theorem stripComment_cons {c : Char} {cs : Text} (h : ¬ ['/', '/'] <+: c :: cs) :
    stripComment (c :: cs) = c :: stripComment cs := by
  cases cs with
  | nil => rfl
  | cons d ds =>
    rw [stripComment, if_neg]
    rintro ⟨rfl, rfl⟩
    exact h ⟨ds, rfl⟩

theorem stripComment_of_noComment {l : Text} (h : ¬ ['/', '/'] <:+: l) : stripComment l = l := by
  induction l with
  | nil => rfl
  | cons c cs ih =>
    rw [List.infix_cons_iff, not_or] at h
    rw [stripComment_cons h.1, ih h.2]

/-- The comment begins at the first `//`: a `/` at the end of `l` would put it one character earlier. -/
theorem stripComment_append_comment {l : Text} (comment : Text) (h : ¬ ['/', '/'] <:+: l ++ ['/']) :
    stripComment (l ++ ['/', '/'] ++ comment) = l := by
  induction l with
  | nil => rfl
  | cons c cs ih =>
    rw [List.cons_append, List.infix_cons_iff, not_or] at h
    obtain ⟨hhead, htail⟩ := h
    have hnot : ¬ ['/', '/'] <+: c :: (cs ++ ['/', '/'] ++ comment) := fun hp =>
      hhead (List.prefix_of_prefix_length_le hp ⟨'/' :: comment, by simp⟩ (by simp))
    exact (stripComment_cons hnot).trans (congrArg (c :: ·) (ih htail))

theorem prepare_eq (l : Text) :
    prepare l = if trim (stripComment l) = [] then none else some (trim (stripComment l)) := by
  unfold prepare
  split
  · next h => rw [h, if_pos rfl]
  · next c cs h => rw [h, if_neg (List.cons_ne_nil c cs)]

/-! ## R143: the tokens

`tokenizeFrom` is read off one run of characters at a time: separators, and characters of a token. -/

theorem tokenize_separators_append {seps : Text} (l : Text) (h : ∀ c ∈ seps, isSeparator c = true) :
    tokenize (seps ++ l) = tokenize l := by
  induction seps with
  | nil => rfl
  | cons c cs ih =>
    obtain ⟨hc, hcs⟩ := List.forall_mem_cons.1 h
    calc tokenize (c :: (cs ++ l)) = tokenize (cs ++ l) := by simp [tokenize, tokenizeFrom, hc]
      _ = tokenize l := ih hcs

theorem tokenize_separators {l : Text} (h : ∀ c ∈ l, isSeparator c = true) : tokenize l = [] := by
  simpa [tokenize, tokenizeFrom] using tokenize_separators_append [] h

theorem tokenizeFrom_token_append {t : Text} (l cur : Text) (h : ∀ c ∈ t, isSeparator c = false) :
    tokenizeFrom (t ++ l) cur = tokenizeFrom l (cur ++ t) := by
  induction t generalizing cur with
  | nil => simp
  | cons c cs ih =>
    obtain ⟨hc, hcs⟩ := List.forall_mem_cons.1 h
    simp [tokenizeFrom, hc, ih _ hcs]

/-- Separators, or the end of the line, end the token under way. -/
theorem tokenizeFrom_separators_append {seps l cur : Text} (hcur : cur ≠ [])
    (hseps : ∀ c ∈ seps, isSeparator c = true) (hend : seps = [] → l = []) :
    tokenizeFrom (seps ++ l) cur = cur :: tokenize l := by
  cases seps with
  | nil =>
    obtain rfl := hend rfl
    simp [tokenizeFrom, tokenize, hcur]
  | cons c cs =>
    obtain ⟨hc, hcs⟩ := List.forall_mem_cons.1 hseps
    have hrest : tokenizeFrom (cs ++ l) [] = tokenize l := tokenize_separators_append l hcs
    simp [tokenizeFrom, hc, hcur, hrest]

theorem tokenize_token_append {pre seps t l : Text} (hpre : ∀ c ∈ pre, isSeparator c = true) (ht : t ≠ [])
    (htok : ∀ c ∈ t, isSeparator c = false) (hseps : ∀ c ∈ seps, isSeparator c = true) (hend : seps = [] → l = []) :
    tokenize (pre ++ t ++ seps ++ l) = t :: tokenize l := by
  calc tokenize (pre ++ t ++ seps ++ l) = tokenize (t ++ (seps ++ l)) := by
        simpa using tokenize_separators_append (t ++ (seps ++ l)) hpre
    _ = tokenizeFrom (seps ++ l) t := tokenizeFrom_token_append (seps ++ l) [] htok
    _ = t :: tokenize l := tokenizeFrom_separators_append ht hseps hend

/-- Every token has a character and no separator, if the token under way has none. -/
theorem mem_tokenizeFrom {l cur t : Text} (hcur : ∀ c ∈ cur, isSeparator c = false) (ht : t ∈ tokenizeFrom l cur) :
    t ≠ [] ∧ ∀ c ∈ t, isSeparator c = false := by
  induction l generalizing cur with
  | nil =>
    obtain ⟨hne, rfl⟩ : cur ≠ [] ∧ t = cur := by simpa [tokenizeFrom] using ht
    exact ⟨hne, hcur⟩
  | cons c cs ih =>
    cases hc : isSeparator c with
    | false =>
      have hcur' : ∀ d ∈ cur ++ [c], isSeparator d = false := by simpa [or_imp, forall_and, hc] using hcur
      exact ih hcur' (by simpa [tokenizeFrom, hc] using ht)
    | true =>
      by_cases hne : cur = []
      · exact ih (cur := []) (by simp) (by simpa [tokenizeFrom, hc, hne] using ht)
      · obtain rfl | ht : t = cur ∨ t ∈ tokenizeFrom cs [] := by simpa [tokenizeFrom, hc, hne] using ht
        · exact ⟨hne, hcur⟩
        · exact ih (by simp) ht

/-- White space at the end of a line ends its last token and makes no other. -/
theorem tokenizeFrom_append_separators {seps : Text} (l cur : Text) (h : ∀ c ∈ seps, isSeparator c = true) :
    tokenizeFrom (l ++ seps) cur = tokenizeFrom l cur := by
  induction l generalizing cur with
  | nil =>
    by_cases hcur : cur = []
    · rw [hcur]
      exact tokenize_separators h
    · simpa [tokenizeFrom, tokenize, hcur] using tokenizeFrom_separators_append hcur h (fun _ => rfl : _ → [] = [])
  | cons c cs ih => simp only [List.cons_append, tokenizeFrom, ih]

/-- A line has the same tokens before and after it is trimmed. -/
theorem tokenize_trim (l : Text) : tokenize (trim l) = tokenize l := by
  obtain ⟨pre, post, hpre, hpost, hl⟩ := exists_trim_between l
  have hleft := tokenize_separators_append (trim l ++ post) fun c hc => isSeparator_of_isSpace (hpre c hc)
  have hright : tokenize (trim l ++ post) = tokenize (trim l) :=
    tokenizeFrom_append_separators (trim l) [] fun c hc => isSeparator_of_isSpace (hpost c hc)
  rw [← hl] at hleft
  exact (hleft.trans hright).symm

/-- Settles O49: preparing a line by where its comment begins, its tokens run by run. -/
theorem tokenizeSplits : Obligations.TokenizeSplits := by
  refine ⟨isSpace_iff, fun _ _ _ => trim_append_append, fun l h => ?_, fun l comment h => ?_, isSeparator_iff,
    fun _ => tokenize_separators, fun _ _ => mem_tokenizeFrom (by simp), fun _ _ _ _ => tokenize_token_append⟩
  · rw [prepare_eq, stripComment_of_noComment h]
  · have hl : ¬ ['/', '/'] <:+: l := fun hin => h (hin.trans ⟨[], ['/'], rfl⟩)
    rw [prepare_eq, prepare_eq, stripComment_append_comment comment h, stripComment_of_noComment hl]

end Sys2Proof.AsmTokens

namespace Sys2Proof.LabelTables

open Sys2Proof.Asm

/-! ## R150, R152: a label table

Lookup and names of a table after one more declaration. -/

@[simp] theorem find_nil (name : Text) : LabelTable.find [] name = none := rfl

@[simp] theorem find_cons (e : Text × Nat) (es : LabelTable) (name : Text) :
    LabelTable.find (e :: es) name = if e.1 = name then some e.2 else LabelTable.find es name := rfl

/-- R152: the last write for a name wins. -/
theorem find_set (tbl : LabelTable) (n : Text) (v : Nat) (m : Text) :
    (tbl.set n v).find m = if m = n then some v else tbl.find m := by
  induction tbl with
  | nil => simp [LabelTable.set, eq_comm]
  | cons e es ih =>
    rw [LabelTable.set]
    by_cases hm : m = n
    · subst hm
      split <;> simp [*]
    · split <;> simp [*, Ne.symm hm]

theorem find_eq_none_iff (tbl : LabelTable) (name : Text) : tbl.find name = none ↔ name ∉ tbl.map Prod.fst := by
  induction tbl with
  | nil => simp
  | cons e es ih =>
    rw [find_cons, List.map_cons, List.mem_cons, not_or, ← ih, eq_comm (a := name)]
    split <;> simp [*]

theorem mem_names_set (tbl : LabelTable) (n : Text) (v : Nat) (m : Text) :
    m ∈ (tbl.set n v).map Prod.fst ↔ m = n ∨ m ∈ tbl.map Prod.fst := by
  rw [← not_iff_not, not_or, ← find_eq_none_iff, ← find_eq_none_iff, find_set]
  split <;> simp [*]

theorem nodup_names_set {tbl : LabelTable} (n : Text) (v : Nat) (h : (tbl.map Prod.fst).Nodup) :
    ((tbl.set n v).map Prod.fst).Nodup := by
  induction tbl with
  | nil => exact List.nodup_singleton n
  | cons e es ih =>
    rw [List.map_cons, List.nodup_cons] at h
    rw [LabelTable.set]
    split
    · next he => exact List.nodup_cons.2 ⟨he ▸ h.1, h.2⟩
    · next he =>
      refine List.nodup_cons.2 ⟨fun hmem => ?_, ih h.2⟩
      exact ((mem_names_set es n v e.1).1 hmem).elim he h.1

theorem mem_set {tbl : LabelTable} {n : Text} {v : Nat} {e : Text × Nat} (h : e ∈ tbl.set n v) :
    e = (n, v) ∨ e ∈ tbl := by
  induction tbl with
  | nil => exact .inl (List.mem_singleton.1 h)
  | cons e' es ih =>
    rw [LabelTable.set] at h
    split at h
    · exact (List.mem_cons.1 h).imp_right (List.mem_cons_of_mem e')
    · obtain rfl | h := List.mem_cons.1 h
      · exact .inr List.mem_cons_self
      · exact (ih h).imp_right (List.mem_cons_of_mem e')

/-- R150: a table that holds a name once, at an address that the counter `n` has reached. -/
def Within (tbl : LabelTable) (n : Nat) : Prop := (tbl.map Prod.fst).Nodup ∧ ∀ e ∈ tbl, e.2 ≤ n

theorem within_nil (n : Nat) : Within [] n := ⟨List.nodup_nil, by simp⟩

theorem Within.mono {tbl : LabelTable} {n k : Nat} (h : Within tbl n) (hle : n ≤ k) : Within tbl k :=
  ⟨h.1, fun e he => (h.2 e he).trans hle⟩

/-- A declaration at the counter itself. -/
theorem Within.set {tbl : LabelTable} {n : Nat} (h : Within tbl n) (name : Text) : Within (tbl.set name n) n := by
  refine ⟨nodup_names_set name n h.1, fun e he => ?_⟩
  obtain rfl | he := mem_set he
  · exact Nat.le_refl n
  · exact h.2 e he

/-! ## R160, R161: the data labels written over the text labels -/

/-- The name is looked up among the data labels first; each of them is declared once, so that the last write for it is the
only one. -/
theorem find_mergeLabels (unified : Bool) (n : Nat) {tl dl : LabelTable} (name : Text)
    (h : (dl.map Prod.fst).Nodup) :
    (mergeLabels unified n tl dl).find name =
      ((dl.find name).map (fun d => if unified then d + n else d)).or (tl.find name) := by
  induction dl generalizing tl with
  | nil => rfl
  | cons e es ih =>
    obtain ⟨hnew, hes⟩ := List.nodup_cons.1 h
    rw [mergeLabels, ih hes, find_set, find_cons]
    by_cases he : e.1 = name
    · obtain rfl := he
      rw [(find_eq_none_iff es e.1).2 hnew, if_pos rfl, if_pos rfl]
      rfl
    · rw [if_neg (Ne.symm he), if_neg he]

end Sys2Proof.LabelTables

namespace Sys2Proof.AssemblerPass1

open Sys2Proof.Asm Sys2Proof.LabelTables

/-! ## R151: the mnemonics -/

theorem mnemonicOf_text (m : Mnemonic) : mnemonicOf m.text = some m := by cases m <;> rfl

theorem eq_text_of_mnemonicOf {t : Text} {m : Mnemonic} (h : mnemonicOf t = some m) : t = m.text := by
  simpa [eq_comm] using List.find?_some h

theorem mnemonicOf_eq_none {t : Text} (h : ∀ m, t ≠ Mnemonic.text m) : mnemonicOf t = none :=
  Option.eq_none_iff_forall_ne_some.2 fun m hm => h m (eq_text_of_mnemonicOf hm)

theorem text_ne_kwData (m : Mnemonic) : m.text ≠ kwData := by cases m <;> decide

theorem text_ne_kwText (m : Mnemonic) : m.text ≠ kwText := by cases m <;> decide

theorem kwWord_ne_kwData : kwWord ≠ kwData := by decide

theorem kwWord_ne_kwText : kwWord ≠ kwText := by decide

/-! ## R152, R153: the label of a line -/

theorem splitLabel_of_colon {name : Text} (rest : Text) (h : ':' ∉ name) :
    splitLabel (name ++ ':' :: rest) = (some (trim name), trim rest) := by
  have hname : ∀ c ∈ name, decide (c ≠ ':') = true := fun c hc => decide_eq_true (ne_of_mem_of_not_mem hc h)
  rw [splitLabel, if_pos (by simp), List.takeWhile_append_of_pos hname, List.dropWhile_append_of_pos hname]
  simp

theorem splitLabel_of_no_colon {line : Text} (h : ':' ∉ line) : splitLabel line = (none, line) := if_neg h

theorem bindLabel_none (st : Pass1) : bindLabel none st = st := rfl

theorem bindLabel_text {st : Pass1} (name : Text) (h : st.seg = .text) :
    bindLabel (some name) st = { st with tl := st.tl.set name st.ic } := by simp only [bindLabel, h]

theorem bindLabel_data {st : Pass1} (name : Text) (h : st.seg = .data) :
    bindLabel (some name) st = { st with dl := st.dl.set name st.dc } := by simp only [bindLabel, h]

/-- R152, R153: a label changes a label table and nothing else. -/
theorem bindLabel_keeps (name : Text) (st : Pass1) :
    (bindLabel (some name) st).seg = st.seg ∧ (bindLabel (some name) st).dc = st.dc ∧
      (bindLabel (some name) st).ic = st.ic ∧ (bindLabel (some name) st).ds = st.ds ∧
      (bindLabel (some name) st).ts = st.ts := by
  cases h : st.seg with
  | text => simp [bindLabel_text name h, h]
  | data => simp [bindLabel_data name h, h]

/-- R151 to R153: the label is bound first; a line without tokens after it emits nothing. -/
theorem parseLine_by_tokens (st : Pass1) (line : Text) :
    (tokenize (splitLabel line).2 = [] → parseLine st line = .ok (bindLabel (splitLabel line).1 st)) ∧
      ∀ t vs, tokenize (splitLabel line).2 = t :: vs →
        parseLine st line = parseContent (bindLabel (splitLabel line).1 st) t vs line :=
  ⟨fun h => by rw [parseLine, h], fun t vs h => by rw [parseLine, h]⟩

/-! ## R155: the words of a `WORD` line -/

theorem dataWords_cons_number {line v : Text} {n : Int} {vs : List Text} {ws : List Word}
    (hv : classify v = .number n) (hvs : dataWords line vs = .ok ws) :
    dataWords line (v :: vs) = .ok (trunc 16 n :: ws) := by simp only [dataWords, hv, hvs]

theorem dataWords_numbers (line : Text) {vs : List Text} {ns : List Int}
    (h : vs.map classify = ns.map TokenClass.number) : dataWords line vs = .ok (ns.map (trunc 16)) := by
  induction ns generalizing vs with
  | nil =>
    obtain rfl := List.map_eq_nil_iff.1 h
    rfl
  | cons n ns ih =>
    obtain ⟨v, vs, rfl, hv, hvs⟩ := List.map_eq_cons_iff.1 h
    exact dataWords_cons_number hv (ih hvs)

/-- A value that is no number, or the error of the values after a number. -/
theorem dataWords_other (line : Text) {vs : List Text} (h : ∃ v ∈ vs, ∀ n, classify v ≠ .number n) :
    dataWords line vs = .error (.formatError kwWord line) := by
  induction vs with
  | nil => simp at h
  | cons v vs ih =>
    rw [List.exists_mem_cons_iff] at h
    rw [dataWords]
    split
    · next n hn => rw [ih (h.resolve_left fun hv => hv n hn)]
    · rfl

/-! ## R151, R154 to R156: the content of a line -/

section Content

variable (st : Pass1) {t : Text} {vs : List Text} (line : Text)

theorem parseContent_dataMarker : parseContent st kwData [] line = .ok { st with seg := .data } := rfl

theorem parseContent_textMarker : parseContent st kwText [] line = .ok { st with seg := .text } := rfl

variable {st}

theorem parseContent_mnemonic (hseg : st.seg = .text) (m : Mnemonic) (vs : List Text) :
    parseContent st m.text vs line =
      .ok { st with ts := st.ts ++ [{ tokens := m.text :: vs, line := line }], ic := st.ic + 1 } := by
  simp [parseContent, text_ne_kwData, text_ne_kwText, hseg, mnemonicOf_text]

theorem parseContent_unknownInstruction (hseg : st.seg = .text) (ht : ∀ m, t ≠ Mnemonic.text m)
    (hd : ¬ (t = kwData ∧ vs = [])) (hx : ¬ (t = kwText ∧ vs = [])) :
    parseContent st t vs line = .error (.unknownInstruction t line) := by
  rw [parseContent, if_neg hd, if_neg hx, hseg]
  simp only [mnemonicOf_eq_none ht]

theorem parseContent_word (hseg : st.seg = .data) {ws : List Word} (h : dataWords line vs = .ok ws) :
    parseContent st kwWord vs line = .ok { st with ds := st.ds ++ ws, dc := st.dc + ws.length } := by
  simp [parseContent, kwWord_ne_kwData, kwWord_ne_kwText, hseg, h]

theorem parseContent_wordError (hseg : st.seg = .data) {e : AsmError} (h : dataWords line vs = .error e) :
    parseContent st kwWord vs line = .error e := by
  simp [parseContent, kwWord_ne_kwData, kwWord_ne_kwText, hseg, h]

theorem parseContent_unknownDataDirective (hseg : st.seg = .data) (ht : t ≠ kwWord) (hd : ¬ (t = kwData ∧ vs = []))
    (hx : ¬ (t = kwText ∧ vs = [])) : parseContent st t vs line = .error (.unknownDataDirective t line) := by
  rw [parseContent, if_neg hd, if_neg hx, hseg]
  exact if_neg ht

variable {line}

/-- Everything the content of a line can do to the state: a marker, an instruction or data words. -/
theorem parseContent_eq_ok {st' : Pass1} (h : parseContent st t vs line = .ok st') :
    (t = kwData ∧ vs = [] ∧ st' = { st with seg := .data }) ∨
      (t = kwText ∧ vs = [] ∧ st' = { st with seg := .text }) ∨
      (st.seg = .data ∧ t = kwWord ∧ ∃ ws, dataWords line vs = .ok ws ∧
        st' = { st with ds := st.ds ++ ws, dc := st.dc + ws.length }) ∨
      (st.seg = .text ∧ ∃ m, t = Mnemonic.text m ∧
        st' = { st with ts := st.ts ++ [{ tokens := t :: vs, line := line }], ic := st.ic + 1 }) := by
  by_cases hd : t = kwData ∧ vs = []
  · obtain ⟨rfl, rfl⟩ := hd
    exact .inl ⟨rfl, rfl, (Except.ok.inj h).symm⟩
  by_cases hx : t = kwText ∧ vs = []
  · obtain ⟨rfl, rfl⟩ := hx
    exact .inr (.inl ⟨rfl, rfl, (Except.ok.inj h).symm⟩)
  have hsegs : st.seg = .data ∨ st.seg = .text := by cases st.seg <;> simp
  obtain hseg | hseg := hsegs
  · by_cases ht : t = kwWord
    · subst ht
      cases hws : dataWords line vs with
      | ok ws =>
        rw [parseContent_word line hseg hws] at h
        exact .inr (.inr (.inl ⟨hseg, rfl, ws, rfl, (Except.ok.inj h).symm⟩))
      | error e =>
        rw [parseContent_wordError line hseg hws] at h
        nomatch h
    · rw [parseContent_unknownDataDirective line hseg ht hd hx] at h
      nomatch h
  · by_cases ht : ∃ m, t = Mnemonic.text m
    · obtain ⟨m, rfl⟩ := ht
      rw [parseContent_mnemonic line hseg] at h
      exact .inr (.inr (.inr ⟨hseg, m, rfl, (Except.ok.inj h).symm⟩))
    · rw [parseContent_unknownInstruction line hseg (not_exists.1 ht) hd hx] at h
      nomatch h

end Content

/-- Settles O51: the label's clause by what `bindLabel` does in each segment, then one lemma of this section for each kind
of content. -/
theorem lineContents : Obligations.LineContents := by
  refine ⟨fun st name rest line hname hline => ?_, fun st line hline => ?_, fun st t vs line => ?_⟩
  · have hsplit : splitLabel line = (some (trim name), trim rest) := hline ▸ splitLabel_of_colon rest hname
    obtain ⟨hseg, hdc, hic, hds, hts⟩ := bindLabel_keeps (trim name) st
    refine ⟨bindLabel (some (trim name)) st, hseg, hdc, hic, hds, hts, fun htext => ?_, fun hdata => ?_, ?_⟩
    · rw [bindLabel_text _ htext]
      exact ⟨rfl, find_set st.tl (trim name) st.ic⟩
    · rw [bindLabel_data _ hdata]
      exact ⟨rfl, find_set st.dl (trim name) st.dc⟩
    · simpa only [hsplit, AsmTokens.tokenize_trim] using parseLine_by_tokens st line
  · simpa only [splitLabel_of_no_colon hline, bindLabel_none] using parseLine_by_tokens st line
  · refine ⟨?_, ?_, ?_, parseContent_unknownInstruction line, ?_, ?_, parseContent_unknownDataDirective line⟩
    · rintro rfl rfl
      exact parseContent_dataMarker st line
    · rintro rfl rfl
      exact parseContent_textMarker st line
    · rintro hseg ⟨m, rfl⟩
      exact parseContent_mnemonic line hseg m vs
    · rintro hseg rfl ns hns
      simpa using parseContent_word line hseg (dataWords_numbers line hns)
    · rintro hseg rfl hother
      exact parseContent_wordError line hseg (dataWords_other line hother)

/-! ## R150: what pass 1 keeps from line to line -/

/-- R150, R156: the counters count what they say, each entry begins with a mnemonic, and the label tables are within the
counters. -/
structure Consistent (st : Pass1) : Prop where
  ic_eq : st.ic = st.ts.length
  dc_eq : st.dc = st.ds.length
  entries : ∀ e ∈ st.ts, ∃ (m : Mnemonic) (vs : List Text), e.tokens = m.text :: vs
  tl : Within st.tl st.ic
  dl : Within st.dl st.dc

theorem consistent_start : Consistent Pass1.start := ⟨rfl, rfl, by simp [Pass1.start], within_nil 0, within_nil 0⟩

theorem bindLabel_keeps_consistent {st : Pass1} (name : Option Text) (h : Consistent st) :
    Consistent (bindLabel name st) := by
  cases name with
  | none => exact h
  | some n =>
    cases hseg : st.seg with
    | text =>
      rw [bindLabel_text n hseg]
      exact { h with tl := h.tl.set n }
    | data =>
      rw [bindLabel_data n hseg]
      exact { h with dl := h.dl.set n }

theorem parseContent_keeps_consistent {st st' : Pass1} {t line : Text} {vs : List Text} (h : Consistent st)
    (hst : parseContent st t vs line = .ok st') : Consistent st' := by
  obtain ⟨-, -, rfl⟩ | ⟨-, -, rfl⟩ | ⟨-, -, ws, -, rfl⟩ | ⟨-, m, rfl, rfl⟩ := parseContent_eq_ok hst
  · exact { h with }
  · exact { h with }
  · exact { h with
      dc_eq := by simp [h.dc_eq]
      dl := h.dl.mono (Nat.le_add_right _ _) }
  · refine { h with ic_eq := by simp [h.ic_eq], entries := fun e he => ?_, tl := h.tl.mono (Nat.le_succ _) }
    obtain he | he := List.mem_append.1 he
    · exact h.entries e he
    · obtain rfl := List.mem_singleton.1 he
      exact ⟨m, vs, rfl⟩

theorem parseLine_keeps_consistent {st st' : Pass1} {line : Text} (h : Consistent st)
    (hst : parseLine st line = .ok st') : Consistent st' := by
  have hlabel := bindLabel_keeps_consistent (splitLabel line).1 h
  obtain ⟨hnone, hsome⟩ := parseLine_by_tokens st line
  cases htok : tokenize (splitLabel line).2 with
  | nil =>
    rw [hnone htok] at hst
    exact Except.ok.inj hst ▸ hlabel
  | cons t vs =>
    rw [hsome t vs htok] at hst
    exact parseContent_keeps_consistent hlabel hst

/-! ## R150, R151: pass 1 over all lines -/

theorem parseLines_cons (st : Pass1) (l : Text) (ls : List Text) :
    parseLines (l :: ls) st = (parseLine st l).bind (parseLines ls) := by
  rw [parseLines]
  cases parseLine st l <;> rfl

theorem parseLines_singleton (st : Pass1) (l : Text) : parseLines [l] st = parseLine st l := by
  rw [parseLines_cons]
  cases parseLine st l <;> rfl

theorem parseLines_append (st : Pass1) (ls ls' : List Text) :
    parseLines (ls ++ ls') st = (parseLines ls st).bind (parseLines ls') := by
  induction ls generalizing st with
  | nil => rfl
  | cons l ls ih =>
    rw [List.cons_append, parseLines_cons, parseLines_cons]
    cases parseLine st l with
    | ok st' => exact ih st'
    | error e => rfl

theorem pass1_concat (lines : List Text) (line : Text) :
    pass1 (lines ++ [line]) = (pass1 lines).bind (parseLines (prepare line).toList) := by
  rw [pass1, List.filterMap_append, parseLines_append]
  cases h : prepare line <;> simp [pass1, h]

theorem parseLines_keeps_consistent {ls : List Text} {st st' : Pass1} (h : Consistent st)
    (hst : parseLines ls st = .ok st') : Consistent st' := by
  induction ls generalizing st with
  | nil => exact Except.ok.inj hst ▸ h
  | cons l ls ih =>
    rw [parseLines_cons] at hst
    cases hl : parseLine st l with
    | ok st₁ =>
      rw [hl] at hst
      exact ih (parseLine_keeps_consistent h hl) hst
    | error e =>
      rw [hl] at hst
      nomatch hst

theorem pass1_consistent {lines : List Text} {st : Pass1} (h : pass1 lines = .ok st) : Consistent st :=
  parseLines_keeps_consistent consistent_start h

/-- Settles O50: pass 1 with one line more, and the invariant `Consistent` of the state it comes to. -/
theorem pass1Counts : Obligations.Pass1Counts := by
  refine ⟨by decide, find_nil, rfl, fun lines line => ?_, fun lines st h => ?_⟩
  · rw [pass1_concat]
    cases pass1 lines with
    | error e => rfl
    | ok st =>
      cases prepare line with
      | none => rfl
      | some l => exact parseLines_singleton st l
  · obtain ⟨hic, hdc, hentries, ⟨htl, htlLe⟩, ⟨hdl, hdlLe⟩⟩ := pass1_consistent h
    exact ⟨hic, hdc, hentries, htl, hdl, htlLe, hdlLe, find_eq_none_iff st.tl, find_eq_none_iff st.dl⟩

/-! ## R160, R161: the label table of pass 2 -/

/-- Settles O52: the merged table of `find_mergeLabels`, whose data names pass 1 keeps apart. -/
theorem labelsMerge : Obligations.LabelsMerge := by
  intro lines st h unified name
  obtain ⟨hic, -, -, -, hdl⟩ := pass1_consistent h
  rw [Pass1.labels, find_mergeLabels unified st.ic name hdl.1, hic]
  cases st.dl.find name <;> rfl

end Sys2Proof.AssemblerPass1

namespace Sys2Proof.TokenClasses

open Sys2Proof.Asm

/-! ## R144: digits, numbers and label names by their characters -/

theorem isDigitChar_iff (c : Char) : isDigitChar c = true ↔ Digit c := by
  simp only [isDigitChar, Bool.and_eq_true, decide_eq_true_eq]
  rfl

theorem isLetterChar_iff (c : Char) : isLetterChar c = true ↔ Letter c := by
  simp only [isLetterChar, Bool.or_eq_true, Bool.and_eq_true, decide_eq_true_eq]
  rfl

theorem not_digit_of_letter {c : Char} (h : Letter c) : ¬ Digit c := by
  rintro ⟨-, h9⟩
  obtain ⟨hA, -⟩ | ⟨ha, -⟩ := h
  · exact absurd (hA.trans h9) (by decide)
  · exact absurd (ha.trans h9) (by decide)

/-- The classifier's left fold is the library's number of the digits, least significant first. -/
theorem digitsValue_eq_some_iff {t : Text} {k : Nat} : digitsValue t = some k ↔ Decimal t k := by
  have hfold : t.foldl (fun acc c => 10 * acc + (c.toNat - '0'.toNat)) 0 =
      Nat.ofDigits 10 (t.reverse.map (fun c => c.toNat - 48)) := by
    rw [Nat.ofDigits_eq_foldr, List.foldr_map, List.foldr_reverse]
    simp only [add_comm (10 * _), Nat.cast_id]
    rfl
  rw [digitsValue, hfold]
  simp [Decimal, isDigitChar_iff, and_assoc, eq_comm (a := k)]

theorem isLabelShape_iff {t : Text} : isLabelShape t = true ↔ LabelShape t := by
  cases t <;> simp [isLabelShape, LabelShape, isLetterChar_iff, isDigitChar_iff, or_assoc]

theorem not_decimal_minus (ds : Text) (k : Nat) : ¬ Decimal ('-' :: ds) k := by
  rw [← digitsValue_eq_some_iff]
  simp [digitsValue, isDigitChar]

theorem signedValue_eq_some_iff {t : Text} {n : Int} : signedValue t = some n ↔ SignedDecimal t n := by
  cases t with
  | nil => simp [signedValue, SignedDecimal, Decimal]
  | cons c cs =>
    rw [signedValue]
    split
    · next h =>
      subst h
      simp [SignedDecimal, not_decimal_minus, digitsValue_eq_some_iff, eq_comm (a := n)]
    · next h => simp [SignedDecimal, h, digitsValue_eq_some_iff, eq_comm (a := n)]

/-! ## R145: the seven classes in their priority order

The classes exclude each other by the first character, except that a label may begin as a register, device or port token
does; there the order decides. -/

theorem after_eq_some_iff {p : Char} {t ds : Text} : after p t = some ds ↔ t = p :: ds := by
  cases t <;> simp [after]

/-- A number has none of the characters in front that mark the other classes. -/
theorem after_of_signedDecimal {p : Char} {t : Text} {n : Int} (h : SignedDecimal t n) (hdigit : ¬ Digit p)
    (hminus : p ≠ '-') : after p t = none := by
  obtain ⟨k, ⟨hne, hdigits, -⟩, -⟩ | ⟨ds, k, rfl, -, -⟩ := h
  · obtain ⟨c, cs, rfl⟩ := List.exists_cons_of_ne_nil hne
    exact if_neg fun (hc : c = p) => hdigit (hc ▸ hdigits c List.mem_cons_self)
  · exact if_neg hminus.symm

theorem after_of_labelShape {p : Char} {t : Text} (h : LabelShape t) (hp : ¬ Letter p) : after p t = none := by
  obtain ⟨c, cs, rfl, hc, -⟩ := h
  exact if_neg fun (he : c = p) => hp (he ▸ hc)

theorem signedValue_of_labelShape {t : Text} (h : LabelShape t) : signedValue t = none := by
  obtain ⟨c, cs, rfl, hc, -⟩ := h
  refine Option.eq_none_iff_forall_ne_some.2 fun n hn => ?_
  have hminus : c ≠ '-' := by
    rintro rfl
    simp [Letter] at hc
  have hnone := after_of_signedDecimal (signedValue_eq_some_iff.1 hn) (not_digit_of_letter hc) hminus
  simp [after] at hnone

/-- R144, R145: the spelling of a token of each class. -/
inductive Spells : Text → TokenClass → Prop
  | register {ds : Text} {k : Nat} (h : Decimal ds k) : Spells ('R' :: ds) (.register k)
  | device {ds : Text} {k : Nat} (h : Decimal ds k) : Spells ('D' :: ds) (.device k)
  | port {ds : Text} {k : Nat} (h : Decimal ds k) : Spells ('P' :: ds) (.port k)
  | constant {ds : Text} {n : Int} (h : SignedDecimal ds n) : Spells ('#' :: ds) (.constant n)
  | address {name : Text} (h : LabelShape name) : Spells ('@' :: name) (.address name)
  | number {t : Text} {n : Int} (h : SignedDecimal t n) : Spells t (.number n)
  | label {t : Text} (h : LabelShape t)
      (hplain : ∀ p ds k, p ∈ ['R', 'D', 'P'] → Decimal ds k → t ≠ p :: ds) : Spells t (.label t)

/-- The first class that fits is spelled by the token; where it is the label, the three before it did not fit. -/
theorem spells_of_classify {t : Text} {c : TokenClass} (h : classify t = c) (hc : c ≠ .other) : Spells t c := by
  have hfirst := (Option.getD_eq_iff.1 h).resolve_right fun hnone => hc hnone.2.symm
  simp only [Option.or_eq_some_iff, asRegister, asDevice, asPort, asConstant, asAddress, asNumber, asLabel,
    Option.map_eq_some_iff, Option.map_eq_none_iff, Option.bind_eq_some_iff, Option.bind_eq_none_iff, after_eq_some_iff,
    Option.ite_none_right_eq_some, Option.some.injEq, digitsValue_eq_some_iff, signedValue_eq_some_iff,
    isLabelShape_iff] at hfirst
  obtain ⟨k, ⟨ds, rfl, hk⟩, rfl⟩ | ⟨hR, hfirst⟩ := hfirst
  · exact .register hk
  obtain ⟨k, ⟨ds, rfl, hk⟩, rfl⟩ | ⟨hD, hfirst⟩ := hfirst
  · exact .device hk
  obtain ⟨k, ⟨ds, rfl, hk⟩, rfl⟩ | ⟨hP, hfirst⟩ := hfirst
  · exact .port hk
  obtain ⟨n, ⟨ds, rfl, hn⟩, rfl⟩ | ⟨-, hfirst⟩ := hfirst
  · exact .constant hn
  obtain ⟨name, ⟨_, rfl, hname, rfl⟩, rfl⟩ | ⟨-, hfirst⟩ := hfirst
  · exact .address hname
  obtain ⟨n, hn, rfl⟩ | ⟨-, hlabel, rfl⟩ := hfirst
  · exact .number hn
  · refine .label hlabel fun p ds k hp hk ht => ?_
    have hnone : digitsValue ds = none := by
      simp only [List.mem_cons, List.not_mem_nil, or_false] at hp
      obtain rfl | rfl | rfl := hp
      · exact hR ds ht
      · exact hD ds ht
      · exact hP ds ht
    simp [digitsValue_eq_some_iff.2 hk] at hnone

/-- A token is of the class it spells: the classes before it in the order do not fit. -/
theorem classify_of_spells {t : Text} {c : TokenClass} (h : Spells t c) : classify t = c := by
  cases h with
  | register h => simp [classify, asRegister, after, digitsValue_eq_some_iff.2 h]
  | device h => simp [classify, asRegister, asDevice, after, digitsValue_eq_some_iff.2 h]
  | port h => simp [classify, asRegister, asDevice, asPort, after, digitsValue_eq_some_iff.2 h]
  | constant h => simp [classify, asRegister, asDevice, asPort, asConstant, after, signedValue_eq_some_iff.2 h]
  | address h => simp [classify, asRegister, asDevice, asPort, asConstant, asAddress, after, isLabelShape_iff.2 h]
  | number h =>
    have hafter {p : Char} := after_of_signedDecimal (p := p) h
    simp [classify, asRegister, asDevice, asPort, asConstant, asAddress, asNumber, hafter, Digit,
      signedValue_eq_some_iff.2 h]
  | label h hplain =>
    have hnone {p : Char} (hp : p ∈ ['R', 'D', 'P']) : (after p t).bind digitsValue = none :=
      Option.bind_eq_none_iff.2 fun ds ht => Option.eq_none_iff_forall_ne_some.2 fun k hk =>
        hplain p ds k hp (digitsValue_eq_some_iff.1 hk) (after_eq_some_iff.1 ht)
    simp [classify, asRegister, asDevice, asPort, asConstant, asAddress, asNumber, asLabel, hnone,
      after_of_labelShape h, Letter, signedValue_of_labelShape h, isLabelShape_iff.2 h]

theorem classify_eq_iff {t : Text} {c : TokenClass} (hc : c ≠ .other) : classify t = c ↔ Spells t c :=
  ⟨fun h => spells_of_classify h hc, classify_of_spells⟩

end Sys2Proof.TokenClasses

namespace Sys2Proof.AssemblerPass2

open Sys2Proof.Machine Sys2Proof.Asm Sys2Proof.WordStream Sys2Proof.TokenClasses

/-! ## R170, R190: the code words and the output -/

theorem codeWords_cons_of_ok {lt : LabelTable} {i : Nat} {e : TextEntry} {op : Operation}
    (h : resolve lt i e = .ok op) (es : List TextEntry) :
    codeWords lt i (e :: es) = (codeWords lt (i + 1) es).map (encodeOp op :: ·) := by
  simp only [codeWords, h]
  cases codeWords lt (i + 1) es <;> rfl

theorem codeWords_cons_of_error {lt : LabelTable} {i : Nat} {e : TextEntry} {err : AsmError}
    (h : resolve lt i e = .error err) (es : List TextEntry) : codeWords lt i (e :: es) = .error err := by
  simp only [codeWords, h]

theorem codeWords_length {lt : LabelTable} {i : Nat} {es : List TextEntry} {ws : List Word}
    (h : codeWords lt i es = .ok ws) : ws.length = es.length := by
  induction es generalizing i ws with
  | nil =>
    obtain rfl := Except.ok.inj h
    rfl
  | cons e es ih =>
    obtain ⟨op, ws', -, hws, rfl⟩ := codeWords_cons_eq_ok h
    rw [List.length_cons, List.length_cons, ih hws]

/-- R170: entries that all resolve have code words. -/
theorem exists_codeWords {lt : LabelTable} {k : Nat} {es : List TextEntry}
    (h : ∀ (i : Nat) e, es[i]? = some e → ∃ op, resolve lt (k + i) e = .ok op) :
    ∃ ws, codeWords lt k es = .ok ws := by
  induction es generalizing k with
  | nil => exact ⟨[], rfl⟩
  | cons e es ih =>
    obtain ⟨op, hop⟩ := h 0 e rfl
    rw [Nat.add_zero] at hop
    obtain ⟨ws, hws⟩ := ih (k := k + 1) fun i e' he => by
      rw [Nat.add_right_comm]
      exact h (i + 1) e' he
    exact ⟨encodeOp op :: ws, by rw [codeWords_cons_of_ok hop, hws]; rfl⟩

/-- R170: the first entry that does not resolve gives its error. -/
theorem codeWords_of_first_error {lt : LabelTable} {k j : Nat} {es : List TextEntry} {entry : TextEntry}
    {err : AsmError} (hentry : es[j]? = some entry)
    (hbefore : ∀ (i : Nat) e, i < j → es[i]? = some e → ∃ op, resolve lt (k + i) e = .ok op)
    (herr : resolve lt (k + j) entry = .error err) : codeWords lt k es = .error err := by
  induction es generalizing k j with
  | nil => simp at hentry
  | cons e es ih =>
    cases j with
    | zero =>
      obtain rfl : e = entry := by simpa using hentry
      exact codeWords_cons_of_error herr es
    | succ j =>
      obtain ⟨op, hop⟩ := hbefore 0 e j.succ_pos rfl
      rw [Nat.add_zero] at hop
      rw [codeWords_cons_of_ok hop, ih (k := k + 1) hentry]
      · rfl
      · intro i e' hi he
        rw [Nat.add_right_comm]
        exact hbefore (i + 1) e' (by omega) he
      · rwa [Nat.add_right_comm]

theorem assembleFile_of_codeWords_ok {lines : List Text} {unified : Bool} {st : Pass1} {code : List Word}
    (hst : pass1 lines = .ok st) (h : codeWords (st.labels unified) 0 st.ts = .ok code) :
    assembleFile lines unified = .ok (code ++ (if unified then st.ds else [])) := by
  simp only [assembleFile, hst, assemble, h]

theorem assembleFile_of_codeWords_error {lines : List Text} {unified : Bool} {st : Pass1} {e : AsmError}
    (hst : pass1 lines = .ok st) (h : codeWords (st.labels unified) 0 st.ts = .error e) :
    assembleFile lines unified = .error e := by
  simp only [assembleFile, hst, assemble, h]

theorem assembleFile_of_pass1_error {lines : List Text} {e : AsmError} (unified : Bool) (h : pass1 lines = .error e) :
    assembleFile lines unified = .error e := by
  simp only [assembleFile, h]

/-- Settles O53: the code has one word for each entry, and the Data Segment stands after it. -/
theorem outputStream : Obligations.OutputStream := by
  refine ⟨fun lines unified st hst hall => ?_, fun lines unified words hwords => ?_⟩
  · obtain ⟨code, hcode⟩ := exists_codeWords (k := 0) (by simpa using hall)
    exact ⟨_, assembleFile_of_codeWords_ok hst hcode⟩
  · cases hst : pass1 lines with
    | error e =>
      rw [assembleFile_of_pass1_error unified hst] at hwords
      nomatch hwords
    | ok st =>
      obtain ⟨code, hcode, rfl⟩ := assembleFile_eq_ok hwords hst
      have hlen := codeWords_length hcode
      refine ⟨st, rfl, ?_, fun i e he => ?_, fun hu d w hd => ?_⟩
      · cases unified <;> simp [hlen]
      · obtain ⟨op, hop, hw⟩ := codeWords_getElem? hcode he
        have hlt : i < code.length := (List.getElem?_eq_some_iff.1 hw).1
        exact ⟨op, by rwa [Nat.zero_add] at hop, by rw [List.getElem?_append_left hlt, hw]⟩
      · rw [if_pos hu, ← hlen, List.getElem?_append_right (by omega), Nat.add_sub_cancel_left, hd]

/-! ## R174, R175: ADD, SUB and END -/

theorem resolveAdd_of_other {cs : List TokenClass} (line : Text)
    (h : ∀ a b c : Nat, cs ≠ [.register a, .register b, .register c]) :
    resolveAdd cs line = .error (.formatError Mnemonic.add.text line) := by
  rw [resolveAdd]
  exact h

theorem resolveSub_of_other {cs : List TokenClass} (line : Text)
    (h : ∀ a b c : Nat, cs ≠ [.register a, .register b, .register c]) :
    resolveSub cs line = .error (.formatError Mnemonic.sub.text line) := by
  rw [resolveSub]
  exact h

theorem resolveEnd_of_ne_nil {cs : List TokenClass} (line : Text) (h : cs ≠ []) :
    resolveEnd cs line = .error (.formatError Mnemonic.endOp.text line) := by
  rw [resolveEnd]
  exact h

/-- Settles O54: each of the three with its shape, and without it. -/
theorem arithmeticAndEndShapes : Obligations.ArithmeticAndEndShapes := by
  refine fun lt i cs line => ⟨?_, fun hother => ⟨resolveAdd_of_other line hother, resolveSub_of_other line hother⟩,
    ?_, resolveEnd_of_ne_nil line⟩
  · rintro a b c rfl
    exact ⟨rfl, rfl, rfl, rfl⟩
  · rintro rfl
    exact ⟨rfl, by decide⟩

/-! ## R172, R187: the operation of a label's address -/

theorem map_addrOf_eq_ok_iff {lt : LabelTable} {line name : Text} {f : Int → Operation} {op : Operation} :
    (addrOf lt line name).map f = .ok op ↔ ∃ v : Nat, lt.find name = some v ∧ op = f v := by
  rw [addrOf]
  cases lt.find name <;> simp [Except.map, eq_comm]

theorem map_labelDisp (lt : LabelTable) (i : Nat) (line name : Text) (f : Int → Operation) :
    (labelDisp lt i line name).map f = (addrOf lt line name).map (fun v => f (v - i)) := by
  rw [labelDisp]
  cases addrOf lt line name <;> rfl

/-! ## R176 to R189: MOV, MOVR and the jumps, form by form -/

/-- Settles O55: the classes by `classify_eq_iff`, and one case for each line of `resolveMov` and `resolveMovr`. -/
theorem movForms : Obligations.MovForms := by
  refine ⟨fun t => ⟨fun k => ?_, fun k => ?_, fun k => ?_, fun n => ?_, fun name => ?_, fun n => ?_, fun name => ?_⟩,
    fun lt i cs line op => ⟨?_, ?_⟩⟩
  · exact (classify_eq_iff (by nofun)).trans ⟨fun | .register h => ⟨_, rfl, h⟩, fun ⟨_, ht, h⟩ => ht ▸ .register h⟩
  · exact (classify_eq_iff (by nofun)).trans ⟨fun | .device h => ⟨_, rfl, h⟩, fun ⟨_, ht, h⟩ => ht ▸ .device h⟩
  · exact (classify_eq_iff (by nofun)).trans ⟨fun | .port h => ⟨_, rfl, h⟩, fun ⟨_, ht, h⟩ => ht ▸ .port h⟩
  · exact (classify_eq_iff (by nofun)).trans ⟨fun | .constant h => ⟨_, rfl, h⟩, fun ⟨_, ht, h⟩ => ht ▸ .constant h⟩
  · exact (classify_eq_iff (by nofun)).trans ⟨fun | .address h => ⟨rfl, h⟩, fun ⟨ht, h⟩ => ht ▸ .address h⟩
  · exact (classify_eq_iff (by nofun)).trans ⟨fun | .number h => h, .number⟩
  · exact (classify_eq_iff (by nofun)).trans
      ⟨fun | .label h hplain => ⟨rfl, h, hplain⟩, fun ⟨ht, h, hplain⟩ => ht ▸ .label h hplain⟩
  · rw [resolveOperands]
    fun_cases resolveMov lt cs line <;> simp_all [map_addrOf_eq_ok_iff, eq_comm (a := op)]
  · rw [resolveOperands]
    fun_cases resolveMovr lt cs line <;> simp_all [map_addrOf_eq_ok_iff, eq_comm (a := op)]

/-- Settles O56: one case for each line of the three functions. -/
theorem jumpForms : Obligations.JumpForms := by
  intro lt i cs line op
  refine ⟨?_, ?_, ?_⟩
  · rw [resolveOperands]
    fun_cases resolveJmpz lt i cs line <;> simp_all [map_labelDisp, map_addrOf_eq_ok_iff, eq_comm (a := op)]
  · rw [resolveOperands]
    fun_cases resolveJmpn lt i cs line <;> simp_all [map_labelDisp, map_addrOf_eq_ok_iff, eq_comm (a := op)]
  · rw [resolveOperands]
    fun_cases resolveJmp lt i cs line <;> simp_all [map_labelDisp, map_addrOf_eq_ok_iff, eq_comm (a := op)]

/-! ## R171, R172, R206: the shape of the operands before their labels (D9) -/

/-- A name that pass 2 looks up: a label, bare or after `@`. -/
def Names (cs : List TokenClass) (name : Text) : Prop := .label name ∈ cs ∨ .address name ∈ cs

/-- What the operands of a line come to, whatever the label table: an operation, an operation of the address of the one
label they name, or a format error. -/
inductive Reading (m : Mnemonic) (i : Nat) (cs : List TokenClass) : Prop where
  | fixed (op : Operation) (h : ∀ lt line, resolveOperands m lt i cs line = .ok op)
      (hnames : ∀ name, ¬ Names cs name := by simp [Names])
  | labelled (l : Text) (f : Int → Operation)
      (h : ∀ lt line, resolveOperands m lt i cs line = (addrOf lt line l).map f)
      (hnames : ∀ name, Names cs name ↔ name = l := by simp [Names])
  | misshapen (h : ∀ lt line, resolveOperands m lt i cs line = .error (.formatError m.text line))

/-- Every line of the resolving functions is one of the three; the last of each is the format error. -/
theorem reading (m : Mnemonic) (i : Nat) (cs : List TokenClass) : Reading m i cs := by
  cases m with
  | add =>
    fun_cases resolveAdd cs [] with
    | case1 => exact .fixed _ fun _ _ => rfl
    | case2 => exact .misshapen fun _ line => resolveAdd_of_other line ‹_›
  | sub =>
    fun_cases resolveSub cs [] with
    | case1 => exact .fixed _ fun _ _ => rfl
    | case2 => exact .misshapen fun _ line => resolveSub_of_other line ‹_›
  | mov =>
    fun_cases resolveMov [] cs [] with
    | case1 | case4 | case6 | case7 => exact .fixed _ fun _ _ => rfl
    | case2 | case3 | case5 => exact .labelled _ _ fun _ _ => rfl
    | case8 => exact .misshapen fun _ _ => by rw [resolveOperands, resolveMov] <;> assumption
  | movr =>
    fun_cases resolveMovr [] cs [] with
    | case1 => exact .fixed _ fun _ _ => rfl
    | case2 => exact .labelled _ _ fun _ _ => rfl
    | case3 => exact .misshapen fun _ _ => by rw [resolveOperands, resolveMovr] <;> assumption
  | jmpz =>
    fun_cases resolveJmpz [] i cs [] with
    | case1 => exact .labelled _ _ fun _ _ => map_labelDisp ..
    | case2 => exact .fixed _ fun _ _ => rfl
    | case3 => exact .misshapen fun _ _ => by rw [resolveOperands, resolveJmpz] <;> assumption
  | jmpn =>
    fun_cases resolveJmpn [] i cs [] with
    | case1 => exact .labelled _ _ fun _ _ => map_labelDisp ..
    | case2 => exact .fixed _ fun _ _ => rfl
    | case3 => exact .misshapen fun _ _ => by rw [resolveOperands, resolveJmpn] <;> assumption
  | jmp =>
    fun_cases resolveJmp [] i cs [] with
    | case1 => exact .labelled _ _ fun _ _ => map_labelDisp ..
    | case2 => exact .fixed _ fun _ _ => rfl
    | case3 => exact .misshapen fun _ _ => by rw [resolveOperands, resolveJmp] <;> assumption
  | endOp =>
    fun_cases resolveEnd cs [] with
    | case1 => exact .fixed _ fun _ _ => rfl
    | case2 => exact .misshapen fun _ line => resolveEnd_of_ne_nil line ‹_›

/-- Settles O57: the operands by their `reading`, and the assembler's error by the first entry that has one. -/
theorem pass2Errors : Obligations.Pass2Errors := by
  refine ⟨fun lines unified => ?_, fun lt i e m vs he => ?_, fun m lt i cs line => ?_,
    fun lines unified e => assembleFile_of_pass1_error unified, fun lines unified st k entry e hst hk hbefore herr => ?_⟩
  · rw [assemblyCondition]
    cases assembleFile lines unified with
    | ok => rfl
    | error e => cases e <;> rfl
  · simp only [resolve, he, AssemblerPass1.mnemonicOf_text]
  · cases reading m i cs with
    | fixed op h hnames =>
      exact ⟨fun hno => absurd (h lt line) (hno lt op),
        fun _ => ⟨fun ⟨name, hname, _⟩ => absurd hname (hnames name), fun _ => ⟨op, h lt line⟩⟩⟩
    | labelled l f h hnames =>
      refine ⟨fun hno => ?_, fun _ => ⟨?_, fun hfound => ?_⟩⟩
      · refine absurd ?_ (hno [(l, 0)] (f 0))
        rw [h, map_addrOf_eq_ok_iff]
        exact ⟨0, by simp, rfl⟩
      · rintro ⟨name, hname, hnone⟩
        obtain rfl := (hnames name).1 hname
        rw [h, addrOf, hnone]
        rfl
      · obtain ⟨v, hv⟩ := Option.ne_none_iff_exists'.1 (hfound l ((hnames l).2 rfl))
        exact ⟨f v, by rw [h, map_addrOf_eq_ok_iff]; exact ⟨v, hv, rfl⟩⟩
    | misshapen h =>
      refine ⟨fun _ => h lt line, fun ⟨lt', op, hop⟩ => ?_⟩
      rw [h] at hop
      nomatch hop
  · exact assembleFile_of_codeWords_error hst
      (codeWords_of_first_error hk (by simpa using hbefore) (by simpa using herr))

end Sys2Proof.AssemblerPass2

namespace Sys2Proof.HostMoves

open Sys2Proof.Machine

/-! ## R210, R32: the canonical form of memory, kept by every host move

However a call ends, it leaves one state, and that the state's memory is canonical is kept by each move in turn. After a
fault a move may write a port or load an image, which a statement about returned states alone would not cover. -/

/-- R98: the state that a call leaves, returned or stopped. -/
def stateLeft : CallResult → State
  | .returned s => s
  | .faulted _ s => s
  | .refused _ s => s

/-- The loop keeps the form, by induction over the budget with one case for each way an iteration goes. -/
theorem stepLoop_keeps_wf (n : Nat) {s : State} (h : s.wf = true) : (stateLeft (stepLoop n s)).wf = true := by
  induction n generalizing s with
  | zero => exact h
  | succ n ih =>
    obtain hh | ⟨hr, t, hs⟩ | ⟨hr, r, hs⟩ := CallLoop.iteration_cases s
    · rwa [CallLoop.stepLoop_of_halted _ hh]
    · rw [CallLoop.stepLoop_of_step_next n hr hs]
      exact ih (StateChange.stepKeepsWellFormed s t h hs)
    · rwa [CallLoop.stepLoop_of_step_fault n hr hs]

/-- The call's `pc` argument and its empty report list leave memory alone. -/
theorem stepCall_keeps_wf (pc : Int) (n : Nat) {s : State} (h : s.wf = true) :
    (stateLeft (stepCall pc n s)).wf = true :=
  stepLoop_keeps_wf n (s := { s with pc := pc, reports := [] }) h

theorem hostAct_keeps_wf (act : HostAction) {s : State} (h : s.wf = true) : (stateLeft (hostAct act s)).wf = true := by
  cases act with
  | load img => exact StateChange.loadWellFormed img
  | step n => exact stepCall_keeps_wf s.pc n h
  | stepFrom pc n => exact stepCall_keeps_wf pc n h
  | writePort _ _ | loadFailed | inspect => exact h

/-- D30: a move after a stop loads an image, writes a port or leaves the state as it is. -/
theorem hostActStopped_keeps_wf (act : HostAction) {stopped : State → CallResult}
    (hstopped : ∀ t, stateLeft (stopped t) = t) {s : State} (h : s.wf = true) :
    (stateLeft (hostActStopped act stopped s)).wf = true := by
  cases act with
  | load img => exact StateChange.loadWellFormed img
  | writePort k v => exact (hstopped (hostWritePort k v s)).symm ▸ h
  | loadFailed | step _ | stepFrom _ _ | inspect => exact (hstopped s).symm ▸ h

theorem hostNext_keeps_wf (act : HostAction) {c : CallResult} (h : (stateLeft c).wf = true) :
    (stateLeft (hostNext act c)).wf = true := by
  cases c with
  | returned s => exact hostAct_keeps_wf act h
  | faulted r s => exact hostActStopped_keeps_wf act (fun _ => rfl) h
  | refused r s => exact hostActStopped_keeps_wf act (fun _ => rfl) h

/-- A sequence of moves keeps the form, by induction over the moves, the last one last. -/
theorem hostRun_keeps_wf (acts : List HostAction) {s : State} (h : s.wf = true) :
    (stateLeft (hostRun acts s)).wf = true := by
  induction acts using List.reverseRecOn with
  | nil => exact h
  | append_singleton acts act ih =>
    rw [hostRun_concat]
    exact hostNext_keeps_wf act ih

/-- What is kept of the state left is so of a returned and of a faulted state. -/
theorem wf_of_stateLeft {c : CallResult} (h : (stateLeft c).wf = true) :
    (∀ t, c = .returned t → t.wf = true) ∧ (∀ r t, c = .faulted r t → t.wf = true) :=
  ⟨fun _ hc => by rwa [hc] at h, fun _ _ hc => by rwa [hc] at h⟩

/-- Settles O16: the one invariant of the state a move or a sequence of moves leaves. -/
theorem hostKeepsWellFormed : Obligations.HostKeepsWellFormed :=
  ⟨fun act _ h => wf_of_stateLeft (hostAct_keeps_wf act h), fun acts _ h => wf_of_stateLeft (hostRun_keeps_wf acts h)⟩

/-! ## R210: the moves one by one -/

/-- A move after moves that returned. -/
theorem hostRun_concat_of_returned {acts : List HostAction} {s t : State} (act : HostAction)
    (h : hostRun acts s = .returned t) : hostRun (acts ++ [act]) s = hostAct act t := by
  rw [hostRun_concat, h, hostNext_returned]

/-- Settles O48: each move is what `hostAct` says of it; a port write has the frame of `State.setPort`. -/
theorem hostWritesOnePort : Obligations.HostWritesOnePort :=
  ⟨fun _ _ => rfl, fun _ _ _ => rfl, hostRun_nil, fun _ act _ _ h => hostRun_concat_of_returned act h,
    fun k v s => ⟨rfl, s.setPort k v, rfl, s.setPort_port_same k v, fun j hj => s.setPort_port_ne k j v hj,
      s.setPort_reg k v, s.setPort_pc k v, ⟨rfl, fun _ => rfl⟩, s.setPort_reports k v⟩⟩

/-! ## R220 to R222: the load -/

theorem load_reg (img : List Word) (r : RegIdx) : (State.load img).reg r = 0 := by
  simp [State.load, State.reset, State.reg]

theorem load_port (img : List Word) (k : PortIdx) : (State.load img).port k = 0 := by
  simp [State.load, State.reset, State.port]

/-- Settles O11: the memory is that of the image (`Memory.read_ofImage`), and nothing is below address 0. -/
theorem loadGivesImage : Obligations.LoadGivesImage := fun img =>
  ⟨load_reg img, load_port img, State.load_pc img, rfl, Memory.read_ofImage img,
    fun _ ha => Memory.read_outside fun ⟨h0, _⟩ => absurd h0 (Int.not_le.2 ha), State.load_reports img⟩

/-- Settles O10: the reset state is the load of the empty image, whose memory has no address. -/
theorem resetValues : Obligations.ResetValues := by
  obtain ⟨hreg, hport, hpc, hlen, -, -, hreports⟩ := loadGivesImage []
  exact ⟨hreg, hport, hpc, hlen, fun _ => Memory.read_outside fun ⟨h0, hlt⟩ => absurd h0 (Int.not_le.2 hlt), hreports, rfl⟩

/-- Settles O12: the loaded state does not mention the state before. -/
theorem loadReplacesAll : Obligations.LoadReplacesAll := ⟨fun _ => rfl, fun _ _ _ => rfl, fun _ _ => rfl⟩

end Sys2Proof.HostMoves

namespace Sys2Proof.Exceptions

open Sys2Proof.Machine

/-! ## R204, R206: the one fault -/

theorem loadFrom_eq_fault {a : RegIdx} {addr : Int} {s : State} {r : Fault} (h : loadFrom a addr s = .fault r) :
    r = .memBounds addr ∧ s.mem.read addr = none := by
  obtain ⟨v, -, he⟩ | ⟨hout, he⟩ := loadFrom_cases a addr s
  · nomatch he.symm.trans h
  · exact ⟨Host.Outcome.fault.inj (h.symm.trans he), Memory.read_outside hout⟩

theorem storeTo_eq_fault {a : RegIdx} {addr : Int} {s : State} {r : Fault} (h : storeTo a addr s = .fault r) :
    r = .memBounds addr ∧ s.mem.read addr = none := by
  obtain ⟨m, -, he⟩ | ⟨hout, he⟩ := storeTo_cases a addr s
  · nomatch he.symm.trans h
  · exact ⟨Host.Outcome.fault.inj (h.symm.trans he), Memory.read_outside hout⟩

/-- Settles O32: three instructions load or store at an address; every other answers a next state. -/
theorem onlyDataAccessFaults : Obligations.OnlyDataAccessFaults := by
  intro i s r h
  cases i with
  | load a l =>
    obtain ⟨hr, hread⟩ := loadFrom_eq_fault h
    exact ⟨absAddr l, hr, hread, .inl ⟨a, l, rfl, rfl⟩⟩
  | store a l =>
    obtain ⟨hr, hread⟩ := storeTo_eq_fault h
    exact ⟨absAddr l, hr, hread, .inr (.inl ⟨a, l, rfl, rfl⟩)⟩
  | movr a b c =>
    obtain ⟨hr, hread⟩ := loadFrom_eq_fault h
    exact ⟨movrAddr b c s, hr, hread, .inr (.inr ⟨a, b, c, rfl, rfl⟩)⟩
  | _ => nomatch h

/-! ## R203: reports

The reserved instructions are those that are not `Instr.assigned`, and each of them keeps its word whole, so that the word
reported is `encode` of the instruction. -/

/-- The report list after an instruction: one more event for a reserved one. -/
def nextReports (i : Instr) (s : State) : List Report :=
  if i.assigned then s.reports else s.reports ++ [{ addr := s.pc, word := encode i }]

theorem loadFrom_reports {a : RegIdx} {addr : Int} {s t : State} (h : loadFrom a addr s = .next t) :
    t.reports = s.reports := by
  obtain ⟨v, -, he⟩ | ⟨-, he⟩ := loadFrom_cases a addr s
  · exact Host.Outcome.next.inj (he.symm.trans h) ▸ rfl
  · nomatch he.symm.trans h

theorem storeTo_reports {a : RegIdx} {addr : Int} {s t : State} (h : storeTo a addr s = .next t) :
    t.reports = s.reports := by
  obtain ⟨m, -, he⟩ | ⟨-, he⟩ := storeTo_cases a addr s
  · exact Host.Outcome.next.inj (he.symm.trans h) ▸ rfl
  · nomatch he.symm.trans h

theorem condJump_reports (taken : Bool) (d : Int) (s : State) :
    (if taken then s.jumpBy d else s.advance).reports = s.reports := by
  cases taken <;> rfl

theorem execIo_reports {a : BitVec 4} {p : BitVec 3} {d : BitVec 1} {s t : State} (h : execIo a p d s = .next t) :
    t.reports = s.reports := by
  obtain rfl | rfl := BitVec.eq_zero_or_eq_one d <;> exact Host.Outcome.next.inj h ▸ rfl

/-- R203: the reports of a next state, one case for each instruction. -/
theorem exec_reports {i : Instr} {s t : State} (h : exec i s = .next t) : t.reports = nextReports i s := by
  cases i with
  | load a l => exact loadFrom_reports h
  | store a l => exact storeTo_reports h
  | movr a b c => exact loadFrom_reports h
  | io a p d => exact execIo_reports h
  | jmpz a l => exact Host.Outcome.next.inj h ▸ condJump_reports (isZero (s.reg a)) (condDisp l) s
  | jmpn a l => exact Host.Outcome.next.inj h ▸ condJump_reports (isNegative (s.reg a)) (condDisp l) s
  | _ => exact Host.Outcome.next.inj h ▸ rfl

/-- R69: the reserved opcodes by number. -/
theorem assigned_eq_false_iff (i : Instr) :
    i.assigned = false ↔ 9 ≤ CallLoop.opcode i ∧ CallLoop.opcode i ≤ 13 := by
  cases i <;> simp [Instr.assigned, CallLoop.opcode]

/-- R203: the event of a fetched word, by its opcode; a reserved word encodes back to itself (`Encoding.encode_decode`). -/
theorem nextReports_decode (w : Word) (s : State) :
    nextReports (decode w) s =
      if 9 ≤ w.toNat / 4096 ∧ w.toNat / 4096 ≤ 13 then s.reports ++ [{ addr := s.pc, word := w }] else s.reports := by
  have hiff := assigned_eq_false_iff (decode w)
  rw [← CallLoop.opcode_of_decode rfl] at hiff
  split
  · next hop =>
    have hio : field w 0 4 ≠ 14 := fun h => by
      have h14 : w.toNat / 4096 = 14 := CallLoop.opcodeField_eq_iff.1 h
      omega
    have hend : field w 0 4 ≠ 15 := fun h => by
      have h15 : w.toNat / 4096 = 15 := CallLoop.opcodeField_eq_iff.1 h
      omega
    simp [nextReports, hiff.2 hop, Encoding.encode_decode (fun h => absurd h hio) (fun h => absurd h hend)]
  · next hop => simp [nextReports, Bool.eq_true_of_not_eq_false (mt hiff.1 hop)]

/-- Settles O36: a step performs the fetched word, after which the list is `nextReports`, or stays. -/
theorem reportsAreReservedWords : Obligations.ReportsAreReservedWords := by
  intro s t h
  refine ⟨fun w hf => ?_, fun hf => ?_⟩
  · rw [step_of_fetch_some hf] at h
    rw [exec_reports h, nextReports_decode]
  · exact Host.Outcome.next.inj ((step_of_fetch_none hf).symm.trans h) ▸ rfl

/-! ## R201, R31: the ports are read by an inbound IO only

An instruction other than IO commutes with setting all the ports, and an outbound IO sets one port to the same value in
both runs. -/

/-- `s` with the ports `ps` in place of its own. -/
def withPorts (ps : Vector Word 8) (s : State) : State := { s with ports := ps }

/-- `withPorts` on the next state of an outcome. -/
def outcomeWithPorts (ps : Vector Word 8) : Host.Outcome State Fault Refusal → Host.Outcome State Fault Refusal
  | .next t => .next (withPorts ps t)
  | .fault r => .fault r
  | .refused r => .refused r

theorem loadFrom_withPorts (ps : Vector Word 8) (a : RegIdx) (addr : Int) (s : State) :
    loadFrom a addr (withPorts ps s) = outcomeWithPorts ps (loadFrom a addr s) := by
  obtain ⟨v, hv, he⟩ | ⟨hout, he⟩ := loadFrom_cases a addr s <;> rw [he]
  · exact loadFrom_of_read (s := withPorts ps s) hv
  · exact loadFrom_outside (s := withPorts ps s) hout

theorem storeTo_withPorts (ps : Vector Word 8) (a : RegIdx) (addr : Int) (s : State) :
    storeTo a addr (withPorts ps s) = outcomeWithPorts ps (storeTo a addr s) := by
  obtain ⟨m, hm, he⟩ | ⟨hout, he⟩ := storeTo_cases a addr s <;> rw [he]
  · exact storeTo_of_write (s := withPorts ps s) hm
  · exact storeTo_outside (s := withPorts ps s) hout

theorem condJump_withPorts (ps : Vector Word 8) (taken : Bool) (d : Int) (s : State) :
    (if taken then (withPorts ps s).jumpBy d else (withPorts ps s).advance) =
      withPorts ps (if taken then s.jumpBy d else s.advance) := by
  cases taken <;> rfl

/-- An instruction other than IO neither reads nor writes a port. -/
theorem exec_withPorts (ps : Vector Word 8) {i : Instr} (s : State) (hio : ∀ a p d, i ≠ .io a p d) :
    exec i (withPorts ps s) = outcomeWithPorts ps (exec i s) := by
  cases i with
  | load a l => exact loadFrom_withPorts ps a (absAddr l) s
  | store a l => exact storeTo_withPorts ps a (absAddr l) s
  | movr a b c => exact loadFrom_withPorts ps a (movrAddr b c s) s
  | jmpz a l => exact congrArg _ (condJump_withPorts ps (isZero (s.reg a)) (condDisp l) s)
  | jmpn a l => exact congrArg _ (condJump_withPorts ps (isNegative (s.reg a)) (condDisp l) s)
  | io a p d => exact absurd rfl (hio a p d)
  | _ => rfl

/-- Settles O38: an IO that is not inbound writes one port (`State.setPort`), and any other instruction commutes with
setting the ports (`exec_withPorts`). -/
theorem portsSeenOnlyByInboundIo : Obligations.PortsSeenOnlyByInboundIo := by
  intro i s ps hin
  by_cases hio : ∃ a p d, i = .io a p d
  · obtain ⟨a, p, d, rfl⟩ := hio
    obtain rfl | rfl := BitVec.eq_zero_or_eq_one d
    · exact absurd rfl (hin a p)
    refine ⟨rfl, rfl, rfl, rfl, fun b k hk => ?_, fun k hk => ?_⟩
    · obtain ⟨-, rfl, -⟩ := Instr.io.inj hk
      exact ((withPorts ps s).setPort_port_same p (s.reg a)).trans (s.setPort_port_same p (s.reg a)).symm
    · exact (withPorts ps s).setPort_port_ne p k (s.reg a) fun h => hk a (h ▸ rfl)
  · have hne : ∀ a p d, i ≠ .io a p d := fun a p d h => hio ⟨a, p, d, h⟩
    have hcomm := exec_withPorts ps s hne
    rw [withPorts] at hcomm
    rw [hcomm]
    cases hx : exec i s with
    | next t => exact ⟨rfl, rfl, rfl, rfl, fun a k h => absurd h (hne a k 1), fun _ _ => rfl⟩
    | fault r => rfl
    | refused r => exact absurd hx (StateChange.exec_ne_refused i s r)

end Sys2Proof.Exceptions
